-- ==== Sys2Proof/Word.lean ====
section
/-! DEFINITION. The machine word, a byte, and the bounds of the signed range. -/

namespace Sys2Proof

/-- The one unit of addressing and of every access: 32 bits, read as signed two's complement
(20_memory.md R51; 00_scope.md R8, R10, D38). -/
abbrev Word := BitVec 32

/-- A byte of the memory image or of a device stream (30_encoding.md R91, 46_io.md R200). -/
abbrev Byte := BitVec 8

/-- `INT_MIN` of 00_scope.md R10. -/
abbrev intMin : Int := -2147483648

/-- `INT_MAX` of 00_scope.md R10. -/
abbrev intMax : Int := 2147483647

end Sys2Proof
end

