-- ==== Sys2Proof/Config.lean ====
section
/-! DEFINITION. The two size parameters of the machine, fixed when it is created. -/

namespace Sys2Proof

/-- The two size parameters, counted in words (00_scope.md R6). A configuration is carried in State,
so one `step` serves every machine the spec allows; no step changes it. -/
structure Config where
  /-- `MEM_SIZE`. -/
  memSize : Nat
  /-- `STACK_CAP`. -/
  stackCap : Nat
deriving DecidableEq, Repr

/-- `0 <= STACK_CAP <= MEM_SIZE <= 2^31 - 4`; outside this there is no machine
(00_scope.md R8, 70_reset_and_hazards.md R251, D30). -/
def Config.valid (c : Config) : Bool :=
  decide (c.stackCap ≤ c.memSize) && decide (c.memSize ≤ 2147483644)

/-- The configuration of `State.reset`: the one the spec's examples and test vectors use
(70_reset_and_hazards.md R257, 95_test_vectors.md). DESIGN CHOICE, log 2: the spec leaves both
parameters open. Unsafe if read as the only machine; no statement of this package is about it alone
but those that say so. -/
def Config.default : Config := { memSize := 1024, stackCap := 16 }

end Sys2Proof
end

