-- ==== Sys2Proof/Syntax.lean ====
section
/-! DEFINITION. The registers and the 26 instructions, operands as the whole words the stream holds. -/

namespace Sys2Proof

/-- The five registers (10_state.md R21, R22); `RES` is the Result register, index 4. -/
inductive Reg where
  | A | B | C | D | RES
deriving DecidableEq, Repr

/-- One constructor per row of the opcode map (30_encoding.md R86). Every operand is a whole word, as
it stands in memory: a register-index operand `r` may be any word, since its range is tested when the
instruction executes (R84, R85). -/
inductive Instr where
  /-- NOP, 0. -/
  | nop
  /-- HALT, 1. -/
  | halt
  /-- ADD r, 2. -/
  | add (r : Word)
  /-- SUB r, 3. -/
  | sub (r : Word)
  /-- MUL r, 4. -/
  | mul (r : Word)
  /-- DIV r, 5. -/
  | div (r : Word)
  /-- INC r, 6. -/
  | inc (r : Word)
  /-- DEC r, 7. -/
  | dec (r : Word)
  /-- LOOP addr, 8. -/
  | loop (addr : Word)
  /-- MOVR r,n, 9. -/
  | movr (r n : Word)
  /-- LOAD r,n, 10. -/
  | load (r n : Word)
  /-- STORE r,n, 11. -/
  | store (r n : Word)
  /-- IN r, 12 (`in` is a word of Lean). -/
  | inp (r : Word)
  /-- GET r, 13. -/
  | get (r : Word)
  /-- OUT r, 14. -/
  | out (r : Word)
  /-- PUT r, 15. -/
  | put (r : Word)
  /-- SWAP r1,r2, 16. -/
  | swap (r1 r2 : Word)
  /-- PUSH r, 17. -/
  | push (r : Word)
  /-- POP r, 18. -/
  | pop (r : Word)
  /-- CMP r1,r2, 19. -/
  | cmp (r1 r2 : Word)
  /-- JMP addr, 20. -/
  | jmp (addr : Word)
  /-- JZ addr, 21. -/
  | jz (addr : Word)
  /-- JNZ addr, 22. -/
  | jnz (addr : Word)
  /-- JGT addr, 23. -/
  | jgt (addr : Word)
  /-- CALL addr,retaddr, 24. -/
  | call (addr retaddr : Word)
  /-- RET, 25. -/
  | ret
deriving DecidableEq, Repr

end Sys2Proof
end

