-- ==== Sys2Proof/Machine/State.lean ====
section
/-! DEFINITION. The state of the machine, its faults and refusals, and the state after power-on. -/

namespace Sys2Proof.Machine

/-- The eight values of the machine status (10_state.md R27). -/
inductive Status where
  | ok
  | halted
  | illegalInstruction
  | illegalOperand
  | divisionByZero
  | invalidAddress
  | invalidStackOperation
  | ioError
deriving DecidableEq, Repr

/-- The six kinds an instruction can raise (00_scope.md R16, 60_exceptions.md R221). -/
inductive ErrorKind where
  | illegalInstruction
  | illegalOperand
  | divisionByZero
  | invalidAddress
  | invalidStackOperation
  | ioError
deriving DecidableEq, Repr

/-- The register file: five signed words (10_state.md R20, R21, R22). -/
structure RegFile where
  /-- `x[0]`. -/
  a : Word
  /-- `x[1]`. -/
  b : Word
  /-- `x[2]`. -/
  c : Word
  /-- `x[3]`. -/
  d : Word
  /-- `x[4]`, the Result register. -/
  res : Word
deriving DecidableEq, Repr

/-- The one memory, written down as its image is (30_encoding.md R91): byte `j` of word `i` is the cell
at `4 * i + j`. Only bytes that are not zero are listed, in rising order of address (`Memory.wf`). The
core itself reads and writes whole words (20_memory.md R51): `MemRead` and `MemWrite` are `State.memRead`
and `State.memWrite`. DESIGN CHOICE, log 1, safe: nothing in the machine can see the representation. -/
abbrev Memory := List Host.Cell

/-- What an unlisted cell reads as: memory is zero-filled (20_memory.md R72). -/
def Memory.blank : Byte := 0

/-- The input stream device (46_io.md R200, R205): the bytes that have arrived and are not consumed, in
the order they arrive, and whether the end of the stream stands after them. While it has not ended more
bytes may come. -/
structure InDev where
  bytes : List Byte
  ended : Bool
deriving DecidableEq, Repr

/-- The whole state: the five architectural items of 10_state.md R20 (`mem`, `regs`, `pc`, `ssize`,
`status`), the parameters fixed at creation (00_scope.md R6), and the contents of the two stream devices
(46_io.md R200), which the spec places outside the core (00_scope.md R9; log 3). -/
structure State where
  /-- `MEM_SIZE` and `STACK_CAP`. -/
  cfg : Config
  /-- `M`. -/
  mem : Memory
  /-- `x`. -/
  regs : RegFile
  /-- The instruction pointer, a signed word that counts words (10_state.md R26). -/
  pc : Word
  /-- The number of occupied stack slots, an exact integer (10_state.md R30). -/
  ssize : Nat
  status : Status
  /-- `IN_DEV`. -/
  input : InDev
  /-- `OUT_DEV`: the bytes written and not yet drained by the host, oldest first. -/
  output : List Byte
deriving DecidableEq, Repr

/-- Why the model stops with a fault. -/
inductive Fault where
  /-- Raised by `State.memRead` and `State.memWrite` users (push, pop, LOAD, STORE) when the word index lies outside
  `0 .. MEM_SIZE-1`. Only a state that breaks `ssize <= STACK_CAP <= MEM_SIZE` gets here, and no run reaches
  one (10_state.md R31). Safe: the spec gives such an access no effect. -/
  | outsideMemory
deriving DecidableEq, Repr

/-- Why the model refuses an instruction. -/
inductive Refusal where
  /-- Raised by an arm of `exec` whose instruction has no meaning yet; there is none in this model. Safe. -/
  | notModelled (mnemonic : String)
deriving DecidableEq, Repr

/-- The outcome of a step or of an instruction. -/
abbrev Result := Host.Outcome State Fault Refusal

/-- All five registers zero (10_state.md R38, R39). -/
def RegFile.zero : RegFile := { a := 0, b := 0, c := 0, d := 0, res := 0 }

/-- The state right after power-on (`create`, 10_state.md R38, 70_reset_and_hazards.md R250) of the empty
image. The configuration is `Config.default` (DESIGN CHOICE, log 2) and the devices hold nothing, the input
ended (DESIGN CHOICE, log 4): create does not touch them and the spec leaves them open. -/
def State.reset : State :=
  { cfg := Config.default
    mem := []
    regs := RegFile.zero
    pc := 0
    ssize := 0
    status := .ok
    input := { bytes := [], ended := true }
    output := [] }

end Sys2Proof.Machine
end

