-- ==== Sys2Proof/Machine/Alu.lean ====
section
/-! DEFINITION. The arithmetic of the ALU: exact integers, then reduced to a word. -/

namespace Sys2Proof.Machine

/-- `wrap32(e)`: the signed word congruent to `e` modulo 2^32 (00_scope.md R14, the spec's decision D4; log 5). -/
def wrap32 (e : Int) : Word := BitVec.ofInt 32 e

/-- The sum of ADD (42_arithmetic.md R131). -/
def aluAdd (a b : Word) : Word := wrap32 (a.toInt + b.toInt)

/-- The difference of SUB and CMP (42_arithmetic.md R132, R137). -/
def aluSub (a b : Word) : Word := wrap32 (a.toInt - b.toInt)

/-- The product of MUL (42_arithmetic.md R130, R133). -/
def aluMul (a b : Word) : Word := wrap32 (a.toInt * b.toInt)

/-- `sdiv(a, b)` for `b != 0`: the exact quotient rounded toward zero, wrapped (00_scope.md R15,
42_arithmetic.md R138; `INT_MIN / -1 = INT_MIN` is the spec's decision D5; log 5). -/
def sdiv (a b : Word) : Word := wrap32 (Int.tdiv a.toInt b.toInt)

/-- INC's sum (42_arithmetic.md R135). -/
def aluInc (a : Word) : Word := wrap32 (a.toInt + 1)

/-- DEC's difference (42_arithmetic.md R136). -/
def aluDec (a : Word) : Word := wrap32 (a.toInt - 1)

end Sys2Proof.Machine
end

