-- ==== Sys2Proof/WellFormed.lean ====
section
/-! DEFINITION. Which instructions are well formed: those whose register-index operands are legal. -/

namespace Sys2Proof

/-- A legal register-index operand: the whole word, signed, lies in `[0,4]` (30_encoding.md R84, R85). -/
def legalIndex (w : Word) : Bool := decide (0 ≤ w.toInt) && decide (w.toInt ≤ 4)

/-- An instruction is well formed when each of its register-index operands is legal. An ill-formed one
still decodes and executes: it raises IllegalOperand (30_encoding.md R85, 40_engine.md R104 (c)).
`n`, `addr` and `retaddr` have no illegal value (R90). -/
def Instr.wellFormed : Instr → Bool
  | .nop => true
  | .halt => true
  | .add r => legalIndex r
  | .sub r => legalIndex r
  | .mul r => legalIndex r
  | .div r => legalIndex r
  | .inc r => legalIndex r
  | .dec r => legalIndex r
  | .loop _ => true
  | .movr r _ => legalIndex r
  | .load r _ => legalIndex r
  | .store r _ => legalIndex r
  | .inp r => legalIndex r
  | .get r => legalIndex r
  | .out r => legalIndex r
  | .put r => legalIndex r
  | .swap r1 r2 => legalIndex r1 && legalIndex r2
  | .push r => legalIndex r
  | .pop r => legalIndex r
  | .cmp r1 r2 => legalIndex r1 && legalIndex r2
  | .jmp _ => true
  | .jz _ => true
  | .jnz _ => true
  | .jgt _ => true
  | .call _ _ => true
  | .ret => true

end Sys2Proof
end

