-- ==== Sys2Proof/Decode.lean ====
section
/-! DEFINITION. Byte order of the image, the decoder (total on any words and any bytes, rejecting by
name), and the encoder. -/

namespace Sys2Proof

/-- Byte `j` of a word, byte 0 the least significant (30_encoding.md R91). -/
def wordByte (w : Word) (j : Nat) : Byte := w.extractLsb' (8 * j) 8

/-- The four bytes of a word as the image holds them, least significant first (30_encoding.md R91). -/
def bytesOfWord (w : Word) : List Byte :=
  [wordByte w 0, wordByte w 1, wordByte w 2, wordByte w 3]

/-- The word four image bytes make, the first the least significant (30_encoding.md R91). -/
def wordOfBytes (b0 b1 b2 b3 : Byte) : Word := b3 ++ b2 ++ b1 ++ b0

/-- The whole words at the front of a byte stream; up to three bytes left over are dropped. -/
def wholeWords : List Byte → List Word
  | b0 :: b1 :: b2 :: b3 :: bs => wordOfBytes b0 b1 b2 b3 :: wholeWords bs
  | _ => []

/-- Why a stream of words does not begin with an instruction. -/
inductive DecodeError where
  /-- There is no opcode word at all. -/
  | noWord
  /-- The opcode word is none of the 26 values (30_encoding.md R90). -/
  | illegalOpcode (w : Word)
  /-- The opcode is known and an operand word is missing (20_memory.md R60, second bullet). -/
  | operandMissing
deriving DecidableEq, Repr

/-- What the decoder answers on a stream: the instruction and the stream after it, or why there is none. -/
inductive Decoded (α : Type) where
  | instr (i : Instr) (rest : List α)
  | rejected (e : DecodeError)
deriving DecidableEq, Repr

/-- Format F0: no operand word (30_encoding.md R81). -/
def decode0 (i : Instr) (ops : List Word) : Decoded Word := .instr i ops

/-- Formats FR and FA: one operand word. -/
def decode1 (f : Word → Instr) : List Word → Decoded Word
  | a :: rest => .instr (f a) rest
  | [] => .rejected .operandMissing

/-- Formats FRN, FRR and FAA: two operand words. -/
def decode2 (f : Word → Word → Instr) : List Word → Decoded Word
  | a :: b :: rest => .instr (f a b) rest
  | _ => .rejected .operandMissing

/-- The dispatch table: the opcode word is compared whole with the 26 values (30_encoding.md R82, R86). -/
def decode : List Word → Decoded Word
  | [] => .rejected .noWord
  | w :: ops =>
    match w.toNat with
    | 0 => decode0 .nop ops
    | 1 => decode0 .halt ops
    | 2 => decode1 .add ops
    | 3 => decode1 .sub ops
    | 4 => decode1 .mul ops
    | 5 => decode1 .div ops
    | 6 => decode1 .inc ops
    | 7 => decode1 .dec ops
    | 8 => decode1 .loop ops
    | 9 => decode2 .movr ops
    | 10 => decode2 .load ops
    | 11 => decode2 .store ops
    | 12 => decode1 .inp ops
    | 13 => decode1 .get ops
    | 14 => decode1 .out ops
    | 15 => decode1 .put ops
    | 16 => decode2 .swap ops
    | 17 => decode1 .push ops
    | 18 => decode1 .pop ops
    | 19 => decode2 .cmp ops
    | 20 => decode1 .jmp ops
    | 21 => decode1 .jz ops
    | 22 => decode1 .jnz ops
    | 23 => decode1 .jgt ops
    | 24 => decode2 .call ops
    | 25 => decode0 .ret ops
    | _ => .rejected (.illegalOpcode w)

/-- The opcode word of an instruction (30_encoding.md R86, R87: 19 to 23 are decimal). -/
def Instr.opcode : Instr → Word
  | .nop => 0
  | .halt => 1
  | .add _ => 2
  | .sub _ => 3
  | .mul _ => 4
  | .div _ => 5
  | .inc _ => 6
  | .dec _ => 7
  | .loop _ => 8
  | .movr _ _ => 9
  | .load _ _ => 10
  | .store _ _ => 11
  | .inp _ => 12
  | .get _ => 13
  | .out _ => 14
  | .put _ => 15
  | .swap _ _ => 16
  | .push _ => 17
  | .pop _ => 18
  | .cmp _ _ => 19
  | .jmp _ => 20
  | .jz _ => 21
  | .jnz _ => 22
  | .jgt _ => 23
  | .call _ _ => 24
  | .ret => 25

/-- The operand words of an instruction, in the order they follow the opcode word (30_encoding.md R81). -/
def Instr.operands : Instr → List Word
  | .nop => []
  | .halt => []
  | .add r => [r]
  | .sub r => [r]
  | .mul r => [r]
  | .div r => [r]
  | .inc r => [r]
  | .dec r => [r]
  | .loop addr => [addr]
  | .movr r n => [r, n]
  | .load r n => [r, n]
  | .store r n => [r, n]
  | .inp r => [r]
  | .get r => [r]
  | .out r => [r]
  | .put r => [r]
  | .swap r1 r2 => [r1, r2]
  | .push r => [r]
  | .pop r => [r]
  | .cmp r1 r2 => [r1, r2]
  | .jmp addr => [addr]
  | .jz addr => [addr]
  | .jnz addr => [addr]
  | .jgt addr => [addr]
  | .call addr retaddr => [addr, retaddr]
  | .ret => []

/-- The words of an instruction: its opcode word, then its operand words (30_encoding.md R80). -/
def encode (i : Instr) : List Word := i.opcode :: i.operands

/-- The operand count `k` of 30_encoding.md R86. -/
def Instr.operandCount (i : Instr) : Nat := i.operands.length

/-- The decoder on bytes, laid out as the image lays them out (30_encoding.md R91): the instruction and
the bytes after it. -/
def decodeBytes (bs : List Byte) : Decoded Byte :=
  match decode (wholeWords bs) with
  | .instr i _ => .instr i (bs.drop (4 * (encode i).length))
  | .rejected e => .rejected e

/-- The bytes of an instruction as the image holds them. -/
def encodeBytes (i : Instr) : List Byte := (encode i).flatMap bytesOfWord

/-- `n` bytes of a number, least significant first. -/
def bytesOfNat : Nat → Nat → List Byte
  | 0, _ => []
  | n + 1, w => BitVec.ofNat 8 w :: bytesOfNat n (w / 256)

/-- The twelve bytes (the longest instruction) of an opcode-table word: its lowest `nbits` bits, bit 0
the least significant bit of the first word, then zeros. -/
def tableWordBytes (nbits w : Nat) : List Byte := bytesOfNat 12 (w % 2 ^ nbits)

/-- The instruction the decoder reads from an opcode-table word. -/
def decodeTableWord (nbits w : Nat) : Option Instr :=
  match decodeBytes (tableWordBytes nbits w) with
  | .instr i _ => some i
  | .rejected _ => none

end Sys2Proof
end

