-- ==== Sys2Proof/Machine/Memory.lean ====
section
/-! DEFINITION. The layout constants, and memory as a canonical list: one byte, one word, clearing a range. -/

namespace Sys2Proof.Machine

/-- `SB`: the highest index of the memory and of the stack region (00_scope.md R7). -/
def stackBottom (c : Config) : Int := (c.memSize : Int) - 1

/-- `EOS`: the index immediately before the stack region; -1 when there is no code region
(00_scope.md R7, C1, D1). -/
def endOfStack (c : Config) : Int := (c.memSize : Int) - (c.stackCap : Int) - 1

/-- One byte of memory; an unlisted one is zero (20_memory.md R72). -/
def Memory.byte : Memory → Nat → Byte
  | [], _ => Memory.blank
  | (k, v) :: m, a => if a = k then v else Memory.byte m a

/-- Write one byte, keeping the canonical form: a zero byte is not listed. -/
def Memory.setByte : Memory → Nat → Byte → Memory
  | [], a, b => if b = Memory.blank then [] else [(a, b)]
  | (k, v) :: m, a, b =>
    if a < k then (if b = Memory.blank then (k, v) :: m else (a, b) :: (k, v) :: m)
    else if a = k then (if b = Memory.blank then m else (a, b) :: m)
    else (k, v) :: Memory.setByte m a b

/-- The canonical form: addresses strictly rising and no listed byte zero. -/
def Memory.wf : Memory → Bool
  | [] => true
  | (k, v) :: m => decide (v ≠ Memory.blank) && m.all (fun c => decide (k < c.1)) && Memory.wf m

/-- Word `i`: its four bytes, least significant at the lowest address (30_encoding.md R91). -/
def Memory.word (m : Memory) (i : Nat) : Word :=
  wordOfBytes (Memory.byte m (4 * i)) (Memory.byte m (4 * i + 1)) (Memory.byte m (4 * i + 2))
    (Memory.byte m (4 * i + 3))

/-- Write word `i`. -/
def Memory.setWord (m : Memory) (i : Nat) (w : Word) : Memory :=
  Memory.setByte
    (Memory.setByte
      (Memory.setByte (Memory.setByte m (4 * i) (wordByte w 0)) (4 * i + 1) (wordByte w 1))
      (4 * i + 2) (wordByte w 2))
    (4 * i + 3) (wordByte w 3)

/-- Write a list of words from index `i` on. -/
def Memory.setWords : Memory → Nat → List Word → Memory
  | m, _, [] => m
  | m, i, w :: ws => Memory.setWords (Memory.setWord m i w) (i + 1) ws

/-- Set words `lo .. hi-1` to zero. -/
def Memory.clearWords (m : Memory) (lo hi : Nat) : Memory :=
  m.filter fun c => decide (c.1 < 4 * lo) || decide (4 * hi ≤ c.1)

/-- `MemRead(i, 1)` (00_scope.md R13): the word at index `i`, none outside `0 .. MEM_SIZE-1` (20_memory.md R50). -/
def State.memRead (s : State) (i : Int) : Option Word :=
  if 0 ≤ i ∧ i < (s.cfg.memSize : Int) then some (Memory.word s.mem i.toNat) else none

/-- `MemWrite(i, 1, v)` (00_scope.md R13), none outside `0 .. MEM_SIZE-1`. -/
def State.memWrite (s : State) (i : Int) (v : Word) : Option State :=
  if 0 ≤ i ∧ i < (s.cfg.memSize : Int) then some { s with mem := Memory.setWord s.mem i.toNat v } else none

end Sys2Proof.Machine
end

