-- ==== Sys2Proof/Machine/Ops.lean ====
section
/-! DEFINITION. The named operations: registers, taking an exception and leaving it, ending an instruction,
and the stack primitives. -/

namespace Sys2Proof.Machine

/-- The status an error kind sets (60_exceptions.md R221). -/
def ErrorKind.status : ErrorKind → Status
  | .illegalInstruction => .illegalInstruction
  | .illegalOperand => .illegalOperand
  | .divisionByZero => .divisionByZero
  | .invalidAddress => .invalidAddress
  | .invalidStackOperation => .invalidStackOperation
  | .ioError => .ioError

/-- The 3-bit code of a status (10_state.md R27, D9). -/
def Status.code : Status → BitVec 3
  | .ok => 0
  | .halted => 1
  | .illegalInstruction => 2
  | .illegalOperand => 3
  | .divisionByZero => 4
  | .invalidAddress => 5
  | .invalidStackOperation => 6
  | .ioError => 7

/-- `x[i]` (00_scope.md R13). -/
def State.getReg (s : State) : Reg → Word
  | .A => s.regs.a
  | .B => s.regs.b
  | .C => s.regs.c
  | .D => s.regs.d
  | .RES => s.regs.res

/-- `x[i] <- v` (00_scope.md R13). -/
def State.setReg (s : State) (r : Reg) (v : Word) : State :=
  match r with
  | .A => { s with regs := { s.regs with a := v } }
  | .B => { s with regs := { s.regs with b := v } }
  | .C => { s with regs := { s.regs with c := v } }
  | .D => { s with regs := { s.regs with d := v } }
  | .RES => { s with regs := { s.regs with res := v } }

/-- Taking an exception, `raise K`: the status becomes `K` and nothing else happens; there is no vector, no
saved pc and no mode (00_scope.md R16, 60_exceptions.md R220, R232). `pc` is where the instruction has left it:
unchanged for the engine's own checks, past the operand words for a handler's (R106, R222). -/
def raise (k : ErrorKind) (s : State) : Result := .next { s with status := k.status }

/-- The only way out of a status other than Ok, the host's soft reset: registers, stack counter, status and the
whole stack region are cleared, `pc`, the code region and the devices are kept (70_reset_and_hazards.md R252, R253,
60_exceptions.md R233). No instruction returns from an exception. -/
def State.softReset (s : State) : State :=
  { s with
    regs := RegFile.zero
    ssize := 0
    status := .ok
    mem := Memory.clearWords s.mem (s.cfg.memSize - s.cfg.stackCap) s.cfg.memSize }

/-- Step 6 of STEP: `pc <- pc + k` (40_engine.md R100, R104 (b)). -/
def State.skipOperands (s : State) (k : Nat) : State := { s with pc := s.pc + BitVec.ofNat 32 k }

/-- Steps 9 and 10 for a handler that succeeds without a jump (40_engine.md R105). -/
def succeed (s : State) : Result := .next { s with status := .ok, pc := s.pc + 1 }

/-- A taken jump: the net effect `pc <- t`, and the success of step 9 (40_engine.md R107, D22). -/
def jumpTo (t : Word) (s : State) : Result := .next { s with status := .ok, pc := t }

/-- Steps 9 and 10 for HALT (41_system.md R121, 40_engine.md R105, C5, D33). -/
def haltMachine (s : State) : Result := .next { s with status := .halted, pc := s.pc + 1 }

/-- The answer of an operation that may raise, or that may be asked for a word that does not exist. -/
inductive Attempt (α : Type) where
  | done (a : α)
  | raises (k : ErrorKind)
  | outside

/-- Go on with the value an operation gave, or raise in the state given, or stop. -/
def Attempt.resolve {α : Type} (r : Attempt α) (s : State) (go : α → Result) : Result :=
  match r with
  | .done a => go a
  | .raises k => raise k s
  | .outside => .fault .outsideMemory

/-- The index of the next free slot, where `push` writes (20_memory.md R54, R55). -/
def State.pushIndex (s : State) : Int := stackBottom s.cfg - (s.ssize : Int)

/-- The index of the top of the stack, where `pop` reads: `SB - (ssize - 1)` (20_memory.md R54, R56). -/
def State.topIndex (s : State) : Int := stackBottom s.cfg - (s.ssize : Int) + 1

/-- `push(v)` (20_memory.md R55). -/
def State.push (s : State) (v : Word) : Attempt State :=
  if s.ssize = s.cfg.stackCap then .raises .invalidStackOperation
  else
    match s.memWrite s.pushIndex v with
    | some t => .done { t with ssize := s.ssize + 1 }
    | none => .outside

/-- `pop()`: the old top, and the state with the vacated slot zero (20_memory.md R56; for RET too, D10, log 5). -/
def State.pop (s : State) : Attempt (Word × State) :=
  if s.ssize = 0 then .raises .invalidStackOperation
  else
    match s.memRead s.topIndex, s.memWrite s.topIndex 0 with
    | some v, some t => .done (v, { t with ssize := s.ssize - 1 })
    | _, _ => .outside

/-- `slot(off)` (20_memory.md R57). -/
def State.slot (s : State) (off : Int) : Attempt Int :=
  if off < 0 ∨ s.ssize = 0 ∨ (s.ssize : Int) ≤ off then .raises .invalidStackOperation
  else .done (s.topIndex + off)

end Sys2Proof.Machine
end

