-- ==== Sys2Proof/Machine/Flags.lean ====
section
/-! DEFINITION. The condition state: the machine has no flag bits, only the Result register (10_state.md R25). -/

namespace Sys2Proof.Machine

/-- "Result mirrors": `x[4] <- x[r]` after `x[r]` is written (42_arithmetic.md R131 to R136). -/
def State.mirror (s : State) (r : Reg) : State := s.setReg .RES (s.getReg r)

/-- The condition of JZ (45_control_flow.md R183). -/
def State.resultIsZero (s : State) : Bool := decide (s.getReg .RES = 0)

/-- The condition of JNZ (45_control_flow.md R184). -/
def State.resultNotZero (s : State) : Bool := decide (s.getReg .RES ≠ 0)

/-- The condition of JGT, a signed comparison (45_control_flow.md R185). -/
def State.resultPositive (s : State) : Bool := decide (0 < (s.getReg .RES).toInt)

/-- The condition of LOOP: register C itself, not Result (45_control_flow.md R181). -/
def State.counterNotZero (s : State) : Bool := decide (s.getReg .C ≠ 0)

end Sys2Proof.Machine
end

