-- ==== Sys2Proof/Machine/Operands.lean ====
section
/-! DEFINITION. The operand forms: a register index with its validation, and the stack-relative offset. -/

namespace Sys2Proof.Machine

/-- The register a legal index names (10_state.md R21, R22). The test is on the whole signed word; a negative
word, or one greater than 4, names none (30_encoding.md R85). -/
def regOfWord (w : Word) : Option Reg :=
  match w.toInt with
  | 0 => some .A
  | 1 => some .B
  | 2 => some .C
  | 3 => some .D
  | 4 => some .RES
  | _ => none

/-- The index of a register (10_state.md R21, R22). -/
def regIndex : Reg → Word
  | .A => 0
  | .B => 1
  | .C => 2
  | .D => 3
  | .RES => 4

/-- A handler with one register operand (formats FR and FRN): `pc` is advanced over the `k` operand words, then the
index is validated, then the effect goes on (40_engine.md R104 (b), (c), D34). -/
def withReg (k : Nat) (w : Word) (s : State) (go : Reg → State → Result) : Result :=
  match regOfWord w with
  | some r => go r (s.skipOperands k)
  | none => raise .illegalOperand (s.skipOperands k)

/-- A handler with two register operands (format FRR), tested in the order r1, r2 (30_encoding.md R85). -/
def withRegs (w1 w2 : Word) (s : State) (go : Reg → Reg → State → Result) : Result :=
  match regOfWord w1 with
  | none => raise .illegalOperand (s.skipOperands 2)
  | some r1 =>
    match regOfWord w2 with
    | none => raise .illegalOperand (s.skipOperands 2)
    | some r2 => go r1 r2 (s.skipOperands 2)

/-- The offset of LOAD and STORE: the exact sum `x[3] + n`, not wrapped (44_stack.md R164, D6; log 5). -/
def State.stackOffset (s : State) (n : Word) : Int := (s.getReg .D).toInt + n.toInt

end Sys2Proof.Machine
end

