-- ==== Sys2Proof/Machine/Arithmetic.lean ====
section
/-! DEFINITION. ADD, SUB, MUL, DIV, INC, DEC, CMP (42_arithmetic.md). -/

namespace Sys2Proof.Machine

/-- `x[0] <- f(x[0], x[r]); x[4] <- x[0]`: the shape of ADD, SUB, MUL and DIV (R131 to R134, R139). -/
def accumulate (f : Word → Word → Word) (r : Reg) (s : State) : Result :=
  succeed ((s.setReg .A (f (s.getReg .A) (s.getReg r))).mirror .A)

/-- `x[r] <- f(x[r]); x[4] <- x[r]`: the shape of INC and DEC (R135, R136, R139). -/
def adjust (f : Word → Word) (r : Reg) (s : State) : Result :=
  succeed ((s.setReg r (f (s.getReg r))).mirror r)

/-- ADD r (R131). -/
def execAdd (r : Word) (s : State) : Result := withReg 1 r s (accumulate aluAdd)

/-- SUB r (R132). -/
def execSub (r : Word) (s : State) : Result := withReg 1 r s (accumulate aluSub)

/-- MUL r (R133). -/
def execMul (r : Word) (s : State) : Result := withReg 1 r s (accumulate aluMul)

/-- DIV r (R134): a zero divisor raises before anything is written. -/
def execDiv (r : Word) (s : State) : Result :=
  withReg 1 r s fun q t => if t.getReg q = 0 then raise .divisionByZero t else accumulate sdiv q t

/-- INC r (R135). -/
def execInc (r : Word) (s : State) : Result := withReg 1 r s (adjust aluInc)

/-- DEC r (R136). -/
def execDec (r : Word) (s : State) : Result := withReg 1 r s (adjust aluDec)

/-- CMP r1,r2 (R137): only Result is written. -/
def execCmp (r1 r2 : Word) (s : State) : Result :=
  withRegs r1 r2 s fun q1 q2 t => succeed (t.setReg .RES (aluSub (t.getReg q1) (t.getReg q2)))

end Sys2Proof.Machine
end

