-- ==== Sys2Proof/Machine/Control.lean ====
section
/-! DEFINITION. LOOP, JMP, JZ, JNZ, JGT, CALL, RET (45_control_flow.md). -/

namespace Sys2Proof.Machine

/-- Jump to `addr` when the condition holds, else go on after the one operand word (R180; 40_engine.md R105, R107). -/
def branch (taken : Bool) (addr : Word) (s : State) : Result :=
  if taken then jumpTo addr (s.skipOperands 1) else succeed (s.skipOperands 1)

/-- LOOP addr (R181): tests C and does not change it. -/
def execLoop (addr : Word) (s : State) : Result := branch s.counterNotZero addr s

/-- JMP addr (R182). -/
def execJmp (addr : Word) (s : State) : Result := branch true addr s

/-- JZ addr (R183). -/
def execJz (addr : Word) (s : State) : Result := branch s.resultIsZero addr s

/-- JNZ addr (R184). -/
def execJnz (addr : Word) (s : State) : Result := branch s.resultNotZero addr s

/-- JGT addr (R185). -/
def execJgt (addr : Word) (s : State) : Result := branch s.resultPositive addr s

/-- CALL addr,retaddr (R186). -/
def execCall (addr retaddr : Word) (s : State) : Result :=
  ((s.skipOperands 2).push retaddr).resolve (s.skipOperands 2) (jumpTo addr)

/-- RET (R187): the vacated slot becomes zero, as for POP (D10, log 5). -/
def execRet (s : State) : Result := s.pop.resolve s fun p => jumpTo p.1 p.2

end Sys2Proof.Machine
end

