-- ==== Sys2Proof/Machine/DataMove.lean ====
section
/-! DEFINITION. MOVR and SWAP (43_data_move.md). -/

namespace Sys2Proof.Machine

/-- MOVR r,n (R150). -/
def execMovr (r n : Word) (s : State) : Result := withReg 2 r s fun q t => succeed (t.setReg q n)

/-- SWAP r1,r2 (R151). -/
def execSwap (r1 r2 : Word) (s : State) : Result :=
  withRegs r1 r2 s fun q1 q2 t =>
    succeed ((t.setReg q1 (t.getReg q2)).setReg q2 (t.getReg q1))

end Sys2Proof.Machine
end

