-- ==== Sys2Proof/Machine/Devices.lean ====
section
/-! DEFINITION. The two stream devices: what they answer, the decimal reader and the decimal writer. -/

namespace Sys2Proof.Machine

/-- The whitespace bytes the decimal reader skips (46_io.md R206 step 1, D13). -/
def isSpace (b : Byte) : Bool :=
  decide (b = 0x20 ∨ b = 0x09 ∨ b = 0x0A ∨ b = 0x0B ∨ b = 0x0C ∨ b = 0x0D)

/-- A decimal digit, `0x30 .. 0x39` (46_io.md R206 step 2). -/
def isDigit (b : Byte) : Bool := decide (0x30 ≤ b.toNat) && decide (b.toNat ≤ 0x39)

/-- The exact value of a digit string, most significant first. -/
def digitsValue (ds : List Byte) : Nat := ds.foldl (fun n b => 10 * n + (b.toNat - 0x30)) 0

/-- An optional sign at the front: whether it is a minus, and what follows it. -/
def takeSign : List Byte → Bool × List Byte
  | [] => (false, [])
  | b :: bs => if b = 0x2D then (true, bs) else if b = 0x2B then (false, bs) else (false, b :: bs)

/-- What `InInt()` answers (46_io.md R200), and the device afterwards. -/
inductive IntAnswer where
  | int (v : Word) (d : InDev)
  | fail (d : InDev)
  /-- More bytes are needed to answer and the stream has not ended: the request blocks (R205). -/
  | wait
deriving DecidableEq, Repr

/-- `InInt()` (46_io.md R206, D13 to D15). The token is taken greedily, so a token that reaches the last byte that
has arrived is not complete until another byte or the end of the stream comes. -/
def InDev.readInt (d : InDev) : IntAnswer :=
  let token := d.bytes.dropWhile isSpace
  let signed := takeSign token
  let digits := signed.2.takeWhile isDigit
  let rest := signed.2.dropWhile isDigit
  if rest = [] ∧ d.ended = false then .wait
  else if digits = [] then .fail { d with bytes := token }
  else
    let v : Int := if signed.1 then -(digitsValue digits : Int) else (digitsValue digits : Int)
    if v < intMin ∨ intMax < v then .fail { d with bytes := token }
    else .int (BitVec.ofInt 32 v) { d with bytes := rest }

/-- What `InByte()` answers (46_io.md R200), and the device afterwards. -/
inductive ByteAnswer where
  | byte (b : Byte) (d : InDev)
  | eof
  /-- No byte has arrived and the stream has not ended: the request blocks (R205). -/
  | wait
deriving DecidableEq, Repr

/-- `InByte()` (46_io.md R200). -/
def InDev.readByte (d : InDev) : ByteAnswer :=
  match d.bytes with
  | b :: bs => .byte b { d with bytes := bs }
  | [] => if d.ended then .eof else .wait

/-- The byte of a digit below ten. -/
def digitByte (n : Nat) : Byte := BitVec.ofNat 8 (0x30 + n)

/-- The decimal digits of `n`, most significant first, no leading zero; `fuel` bounds their number. -/
def decimalDigits : Nat → Nat → List Byte
  | 0, _ => []
  | fuel + 1, n => if n < 10 then [digitByte n] else decimalDigits fuel (n / 10) ++ [digitByte (n % 10)]

/-- `OutDec(v)`'s bytes (46_io.md R207, D16): ten digits hold every `|v|`. -/
def outDec (v : Word) : List Byte :=
  if v.toInt < 0 then 0x2D :: decimalDigits 10 v.toInt.natAbs else decimalDigits 10 v.toInt.natAbs

/-- `OutByte`, `OutDec`: the output grows at its end and always accepts (46_io.md R200, D17). -/
def State.emit (s : State) (bs : List Byte) : State := { s with output := s.output ++ bs }

/-- Bytes arrive at the device; after the end of the stream none do (46_io.md R205). -/
def InDev.feed (bs : List Byte) (d : InDev) : InDev := if d.ended then d else { d with bytes := d.bytes ++ bs }

/-- The stream ends after the bytes that have arrived (46_io.md R205). -/
def InDev.finish (d : InDev) : InDev := { d with ended := true }

/-- The host feeds the input device, at any time (80_host_interface.md R287). -/
def State.feedInput (s : State) (bs : List Byte) : State := { s with input := s.input.feed bs }

/-- The host ends the input stream. -/
def State.endInput (s : State) : State := { s with input := s.input.finish }

/-- The host takes away the bytes written so far (80_host_interface.md R287). -/
def State.drainOutput (s : State) : State := { s with output := [] }

end Sys2Proof.Machine
end

