-- ==== Sys2Proof/Machine/Io.lean ====
section
/-! DEFINITION. IN, GET, OUT, PUT (46_io.md), and when an instruction waits for the input device. -/

namespace Sys2Proof.Machine

/-- IN r (R201). While the device has no answer the STEP has not happened and nothing has changed, not even `pc`
(40_engine.md R108; log 6). -/
def execInp (r : Word) (s : State) : Result :=
  withReg 1 r s fun q t =>
    match t.input.readInt with
    | .int v d => succeed ({ t with input := d }.setReg q v)
    | .fail d => raise .ioError { t with input := d }
    | .wait => .next s

/-- GET r (R202): at end of stream C is written first, then `x[r]` (D11); a byte is zero-extended (D12). -/
def execGet (r : Word) (s : State) : Result :=
  withReg 1 r s fun q t =>
    match t.input.readByte with
    | .byte b d => succeed ({ t with input := d }.setReg q (b.setWidth 32))
    | .eof => succeed ((t.setReg .C 0).setReg q (-1))
    | .wait => .next s

/-- OUT r (R203). -/
def execOut (r : Word) (s : State) : Result :=
  withReg 1 r s fun q t => succeed (t.emit (outDec (t.getReg q)))

/-- PUT r (R204): the value must lie in `[0,255]`. -/
def execPut (r : Word) (s : State) : Result :=
  withReg 1 r s fun q t =>
    if (t.getReg q).toInt < 0 ∨ 255 < (t.getReg q).toInt then raise .illegalOperand t
    else succeed (t.emit [(t.getReg q).setWidth 8])

/-- Whether the instruction is an IN or a GET with a legal operand whose device has no answer yet: the only points
where execution can block (R205, 40_engine.md R108). -/
def waitsForInput (i : Instr) (s : State) : Bool :=
  match i with
  | .inp r => (regOfWord r).isSome && decide (s.input.readInt = .wait)
  | .get r => (regOfWord r).isSome && decide (s.input.readByte = .wait)
  | _ => false

end Sys2Proof.Machine
end

