-- ==== Sys2Proof/Machine/Stack.lean ====
section
/-! DEFINITION. PUSH, POP, LOAD, STORE (44_stack.md). -/

namespace Sys2Proof.Machine

/-- PUSH r (R160). -/
def execPush (r : Word) (s : State) : Result :=
  withReg 1 r s fun q t => (t.push (t.getReg q)).resolve t succeed

/-- POP r (R161). -/
def execPop (r : Word) (s : State) : Result :=
  withReg 1 r s fun q t => t.pop.resolve t fun p => succeed (p.2.setReg q p.1)

/-- LOAD r,n (R162): the offset is computed before the destination is written. -/
def execLoad (r n : Word) (s : State) : Result :=
  withReg 2 r s fun q t => (t.slot (t.stackOffset n)).resolve t fun i =>
    match t.memRead i with
    | some v => succeed (t.setReg q v)
    | none => .fault .outsideMemory

/-- STORE r,n (R163). -/
def execStore (r n : Word) (s : State) : Result :=
  withReg 2 r s fun q t => (t.slot (t.stackOffset n)).resolve t fun i =>
    match t.memWrite i (t.getReg q) with
    | some u => succeed u
    | none => .fault .outsideMemory

end Sys2Proof.Machine
end

