-- ==== Sys2Proof/Machine/System.lean ====
section
/-! DEFINITION. NOP and HALT (41_system.md). -/

namespace Sys2Proof.Machine

/-- NOP (R120). -/
def execNop (s : State) : Result := succeed s

/-- HALT (R121). -/
def execHalt (s : State) : Result := haltMachine s

end Sys2Proof.Machine
end

