-- ==== Sys2Proof/Machine/Dispatch.lean ====
section
/-! DEFINITION. The dispatcher: one arm per constructor of Instr (30_encoding.md R89), steps 6 to 10 of STEP. -/

namespace Sys2Proof.Machine

def exec (i : Instr) (s : State) : Host.Outcome State Fault Refusal :=
  match i with
  | .nop => Sys2Proof.Machine.execNop s
  | .halt => Sys2Proof.Machine.execHalt s
  | .add r => Sys2Proof.Machine.execAdd r s
  | .sub r => Sys2Proof.Machine.execSub r s
  | .mul r => Sys2Proof.Machine.execMul r s
  | .div r => Sys2Proof.Machine.execDiv r s
  | .inc r => Sys2Proof.Machine.execInc r s
  | .dec r => Sys2Proof.Machine.execDec r s
  | .loop addr => Sys2Proof.Machine.execLoop addr s
  | .movr r n => Sys2Proof.Machine.execMovr r n s
  | .load r n => Sys2Proof.Machine.execLoad r n s
  | .store r n => Sys2Proof.Machine.execStore r n s
  | .inp r => Sys2Proof.Machine.execInp r s
  | .get r => Sys2Proof.Machine.execGet r s
  | .out r => Sys2Proof.Machine.execOut r s
  | .put r => Sys2Proof.Machine.execPut r s
  | .swap r1 r2 => Sys2Proof.Machine.execSwap r1 r2 s
  | .push r => Sys2Proof.Machine.execPush r s
  | .pop r => Sys2Proof.Machine.execPop r s
  | .cmp r1 r2 => Sys2Proof.Machine.execCmp r1 r2 s
  | .jmp addr => Sys2Proof.Machine.execJmp addr s
  | .jz addr => Sys2Proof.Machine.execJz addr s
  | .jnz addr => Sys2Proof.Machine.execJnz addr s
  | .jgt addr => Sys2Proof.Machine.execJgt addr s
  | .call addr retaddr => Sys2Proof.Machine.execCall addr retaddr s
  | .ret => Sys2Proof.Machine.execRet s

end Sys2Proof.Machine
end

