-- ==== Sys2Proof/Machine/Fetch.lean ====
section
/-! DEFINITION. Steps 2 to 5 of STEP: the bound check, the opcode fetch, the dispatch and the operand fetch. -/

namespace Sys2Proof.Machine

/-- The words of the memory from index `i` on, at most `n` of them, stopping where the memory ends. -/
def State.wordsFrom (s : State) : Nat → Int → List Word
  | 0, _ => []
  | n + 1, i =>
    match s.memRead i with
    | some w => w :: s.wordsFrom n (i + 1)
    | none => []

/-- What the fetch gives: an instruction with its operands, or the kind the engine raises. -/
inductive Fetched where
  | instr (i : Instr)
  | raises (k : ErrorKind)
deriving DecidableEq, Repr

/-- Whether `pc` may be fetched from: `0 <= pc <= EOS`, signed (40_engine.md R102). -/
def pcInRange (c : Config) (pc : Word) : Bool :=
  decide (0 ≤ pc.toInt) && decide (pc.toInt ≤ endOfStack c)

/-- Fetch at `pc`: the bound check (R102), the opcode match (R103), then the operand words, which may lie in the
stack region but not outside the memory (20_memory.md R60, D7, D8). The checks come in the order of
60_exceptions.md R224. -/
def fetch (s : State) : Fetched :=
  if pcInRange s.cfg s.pc then
    match decode (s.wordsFrom 3 s.pc.toInt) with
    | .instr i _ => .instr i
    | .rejected (.illegalOpcode _) => .raises .illegalInstruction
    | .rejected .operandMissing => .raises .invalidAddress
    | .rejected .noWord => .raises .invalidAddress
  else .raises .invalidAddress

/-- Place the words of an opcode-table entry at index `i`, as far as the memory reaches. -/
def State.placeWords (s : State) (i : Nat) (ws : List Word) : State :=
  { s with mem := Memory.setWords s.mem i (ws.take (s.cfg.memSize - i)) }

/-- Where a word must stand for the next step to fetch it: `pc`, or index 0 where `pc` is out of the code region. -/
def State.fetchablePc (s : State) : Word := if pcInRange s.cfg s.pc then s.pc else 0

end Sys2Proof.Machine
end

