-- ==== Sys2Proof/Machine/Step.lean ====
section
/-! DEFINITION. STEP (40_engine.md R100), and placing one instruction where STEP fetches next. -/

namespace Sys2Proof.Machine

/-- STEP: nothing at all unless the status is Ok (R101); else what the fetch raises, with `pc` unchanged (R102, R103);
else the instruction (R104 to R107). -/
def step (s : State) : Host.Outcome State Fault Refusal :=
  if s.status = .ok then
    match fetch s with
    | .instr i => exec i s
    | .raises k => raise k s
  else .next s

/-- `s` with the instruction of an opcode-table word stored where the next step fetches: at `pc`, with the status Ok
that the gate asks for, and `pc` at 0 if it was out of the code region. The model's stand-in for the loader
(log 8). -/
def State.withFetchWord (s : State) (nbits w : Nat) : State :=
  { s.placeWords s.fetchablePc.toNat (wholeWords (tableWordBytes nbits w)) with
    pc := s.fetchablePc
    status := .ok }

end Sys2Proof.Machine
end

