-- ==== Sys2Proof/Machine/Commands.lean ====
section
/-! DEFINITION. The boot (load, create) and the host's commands and accessors (70_reset_and_hazards.md,
80_host_interface.md, RUN of 40_engine.md). -/

namespace Sys2Proof.Machine

/-- The program words of a byte image; none when its length is no multiple of 4 (70_reset_and_hazards.md R256, R258,
R259; 30_encoding.md R91). -/
def loadWords (bs : List Byte) : Option (List Word) :=
  if bs.length % 4 = 0 then some (wholeWords bs) else none

/-- The default `MEM_SIZE` for `p` program words: the smallest multiple of 1024 that holds them and the stack
(70_reset_and_hazards.md R257, D2). -/
def defaultMemSize (p stackCap : Nat) : Nat := 1024 * ((p + stackCap + 1023) / 1024)

/-- Power-on, `create`: none where the configuration is no machine or does not hold the image
(70_reset_and_hazards.md R250, R251; 10_state.md R38). The devices are given and not touched. -/
def create (cfg : Config) (image : List Word) (input : InDev) (output : List Byte) : Option State :=
  if cfg.valid ∧ image.length + cfg.stackCap ≤ cfg.memSize then
    some
      { cfg := cfg
        mem := Memory.setWords [] 0 image
        regs := RegFile.zero
        pc := 0
        ssize := 0
        status := .ok
        input := input
        output := output }
  else none

/-- Loader and power-on together, with the default memory size. The contents of both devices are given, as for `create`:
power-on does not touch them and the spec states none (70_reset_and_hazards.md R250, R287; only `State.reset` chooses
any, DESIGN CHOICE, log 4). -/
def boot (bs : List Byte) (stackCap : Nat) (input : InDev) (output : List Byte) : Option State :=
  (loadWords bs).bind fun ws =>
    create { memSize := defaultMemSize ws.length stackCap, stackCap := stackCap } ws input output

/-- The two results of STEP (80_host_interface.md R284). -/
inductive StepResult where
  | success
  | fail
deriving DecidableEq, Repr

/-- What STEP returns in this state: none while it is blocked in IN or GET (or where the model stops with a fault);
FAIL when it is refused or raises, SUCCESS when an instruction executed, HALT included (40_engine.md R100,
80_host_interface.md R284). -/
def stepResult (s : State) : Option StepResult :=
  if s.status = .ok then
    match fetch s with
    | .raises _ => some .fail
    | .instr i =>
      if waitsForInput i s then none
      else
        match exec i s with
        | .next t => if t.status = .ok ∨ t.status = .halted then some .success else some .fail
        | .fault _ => none
        | .refused _ => none
  else some .fail

/-- What a command answers, or a move of `act`. -/
inductive Reply where
  /-- Done, nothing to return. -/
  | done
  | stepped (r : StepResult)
  /-- RUN's signed count (40_engine.md R110). -/
  | count (n : Int)
  | word (w : Word)
  | size (n : Nat)
  | status (k : Status)
  /-- The bytes drained from the output. -/
  | bytes (bs : List Byte)
  /-- The command has not returned: its STEP is blocked in IN or GET (46_io.md R205), and it is `Session.pending`. -/
  | waiting
  /-- There is no such move: another command is in progress (80_host_interface.md R281, U6). Nothing has changed. -/
  | noMove
  /-- No command is in progress, so there is nothing to go on with. Nothing has changed. -/
  | nothingPending
  /-- The index is outside the memory (80_host_interface.md R285). -/
  | noSuchWord
  /-- The model stopped with a fault; no state that satisfies `State.Inv` answers this. -/
  | stopped
deriving DecidableEq, Repr

/-- A command that has not returned, because its STEP is blocked (40_engine.md R108, 80_host_interface.md R281). -/
inductive Call where
  /-- STEP. -/
  | step
  /-- RUN: the steps it may still attempt, the blocked one included, and the steps it has made (40_engine.md R110). The
  count lives as long as the command and is no architectural state (10_state.md R35). -/
  | run (left : Nat) (count : Int)
deriving DecidableEq, Repr

/-- What the host faces: the machine and its devices, and the command in progress, if any. This stands beside State
because the spec's list of the machine's state is closed (10_state.md R20, R35; DESIGN CHOICE, log 21). -/
structure Session where
  machine : State
  pending : Option Call
deriving DecidableEq, Repr

/-- Between commands. -/
def State.idle (s : State) : Session := { machine := s, pending := none }

/-- With a command in progress. -/
def State.busy (s : State) (c : Call) : Session := { machine := s, pending := some c }

/-- The STEP command, up to its return or to the point where it blocks. -/
def stepCall (s : State) : Reply × Session :=
  match step s with
  | .next t =>
    match stepResult s with
    | some r => (.stepped r, t.idle)
    | none => (.waiting, t.busy .step)
  | .fault _ => (.stopped, s.idle)
  | .refused _ => (.stopped, s.idle)

/-- RUN's loop: at most `n` more steps, `count` made so far (40_engine.md R110), up to its return or to the point where
one of them blocks. -/
def runLoop : Nat → Int → State → Reply × Session
  | 0, count, s => (.count count, s.idle)
  | n + 1, count, s =>
    match step s with
    | .next t =>
      match stepResult s with
      | none => (.waiting, t.busy (.run (n + 1) count))
      | some .fail => (.count (-(count + 1)), t.idle)
      | some .success =>
        if t.status = .halted then (.count (count + 1), t.idle) else runLoop n (count + 1) t
    | .fault _ => (.stopped, s.idle)
    | .refused _ => (.stopped, s.idle)

/-- `run(budget)`; a negative budget counts as zero (40_engine.md R110, R112, D19). -/
def run (budget : Int) (s : State) : Reply × Session := runLoop budget.toNat 0 s

/-- The host's commands between power-on and the end of life (80_host_interface.md R280). Register accessors take a
register, so an index outside 0 to 4 cannot be asked for (R282, U5). `destroy` is out of scope (R255). -/
inductive Command where
  | step
  | run (budget : Int)
  | reset
  | getRegister (r : Reg)
  | setRegister (r : Reg) (v : Word)
  | getStackSize
  | getStatus
  | getPc
  | setPc (v : Word)
  | getMemory (index : Int)
deriving DecidableEq, Repr

/-- A command issued while no other is in progress (80_host_interface.md R280 to R286). -/
def issue (c : Command) (s : State) : Reply × Session :=
  match c with
  | .step => stepCall s
  | .run budget => run budget s
  | .reset => (.done, s.softReset.idle)
  | .getRegister r => (.word (s.getReg r), s.idle)
  | .setRegister r v => (.done, (s.setReg r v).idle)
  | .getStackSize => (.size s.ssize, s.idle)
  | .getStatus => (.status s.status, s.idle)
  | .getPc => (.word s.pc, s.idle)
  | .setPc v => (.done, State.idle { s with pc := v })
  | .getMemory index =>
    match s.memRead index with
    | some w => (.word w, s.idle)
    | none => (.noSuchWord, s.idle)

/-- One command at a time: while one is in progress the host has no move but on the devices (80_host_interface.md R281,
R287, U6). -/
def command (c : Command) (σ : Session) : Reply × Session :=
  match σ.pending with
  | none => issue c σ.machine
  | some _ => (.noMove, σ)

/-- The core asks the device again for the command in progress: the blocked STEP is tried again, and a RUN goes on with
the budget and the count it had (80_host_interface.md R287, 40_engine.md R110). -/
def resume (σ : Session) : Reply × Session :=
  match σ.pending with
  | none => (.nothingPending, σ)
  | some .step => stepCall σ.machine
  | some (.run left count) => runLoop left count σ.machine

/-- Everything that can happen after power-on: the host's commands; its moves on the devices, which it has at any time
(80_host_interface.md R287); and the core going on with a command that waits. -/
inductive Event where
  | command (c : Command)
  | resume
  /-- Bytes arrive at IN_DEV. -/
  | feed (bs : List Byte)
  /-- The input stream ends. -/
  | endInput
  /-- The bytes written to OUT_DEV are taken away. -/
  | drain
deriving DecidableEq, Repr

/-- One event. -/
def act (e : Event) (σ : Session) : Reply × Session :=
  match e with
  | .command c => command c σ
  | .resume => resume σ
  | .feed bs => (.done, { σ with machine := σ.machine.feedInput bs })
  | .endInput => (.done, { σ with machine := σ.machine.endInput })
  | .drain => (.bytes σ.machine.output, { σ with machine := σ.machine.drainOutput })

end Sys2Proof.Machine
end

