-- ==== Sys2Proof/Safety.lean ====
section
/-! DEFINITION. What claims are stated with: which word names which register, the frames, and the invariant. -/

namespace Sys2Proof.Machine

/-- The word `w`, read as a signed number, is the index of the register `q` (10_state.md R21, R22). -/
def Names (w : Word) : Reg → Prop
  | .A => w.toInt = 0
  | .B => w.toInt = 1
  | .C => w.toInt = 2
  | .D => w.toInt = 3
  | .RES => w.toInt = 4

/-- The word `w` is the index of no register (30_encoding.md R85). -/
def NamesNone (w : Word) : Prop := w.toInt < 0 ∨ 4 < w.toInt

/-- Every register but those listed is as before. -/
def SameRegs (but : List Reg) (s t : State) : Prop := ∀ q, q ∉ but → t.getReg q = s.getReg q

/-- Every byte of memory reads as before. -/
def SameMem (s t : State) : Prop := ∀ a, Memory.byte t.mem a = Memory.byte s.mem a

/-- Every byte of memory outside the word at index `i` reads as before. -/
def SameMemBut (i : Int) (s t : State) : Prop :=
  ∀ a : Nat, (a : Int) < 4 * i ∨ 4 * i + 4 ≤ (a : Int) → Memory.byte t.mem a = Memory.byte s.mem a

/-- The frame of an instruction that writes at most the registers listed: every other register, every byte of
memory, the stack counter, the parameters and both devices are as before. `pc` and `status` are stated beside it. -/
structure OnlyRegs (but : List Reg) (s t : State) : Prop where
  regs : SameRegs but s t
  mem : SameMem s t
  ssize : t.ssize = s.ssize
  cfg : t.cfg = s.cfg
  input : t.input = s.input
  output : t.output = s.output

/-- The frame of an instruction that stores at most the word at index `i`, writes at most the registers listed, and may
move the stack counter: every other register, every other byte, the parameters and both devices are as before. -/
structure OnlyWord (but : List Reg) (i : Int) (s t : State) : Prop where
  regs : SameRegs but s t
  mem : SameMemBut i s t
  cfg : t.cfg = s.cfg
  input : t.input = s.input
  output : t.output = s.output

/-- An instruction of `k` operand words has succeeded without a jump (40_engine.md R105). -/
def Completed (k : Nat) (s t : State) : Prop := t.pc = s.pc + BitVec.ofNat 32 (k + 1) ∧ t.status = .ok

/-- The state after a handler with `k` operand words raised `e`: only the status and `pc` differ (40_engine.md R106,
60_exceptions.md R223). -/
def raisedState (e : ErrorKind) (k : Nat) (s : State) : State :=
  { s with status := e.status, pc := s.pc + BitVec.ofNat 32 k }

/-- `r` is the one value the exact result `e` may leave in a 32-bit signed word (00_scope.md R14). -/
def WrapsTo (e : Int) (r : Word) : Prop := ∃ n : Int, e = r.toInt + n * 2 ^ 32

/-- The invariant of every state a run reaches: the configuration is a machine (70_reset_and_hazards.md R251), memory
is in canonical form and inside its bounds (20_memory.md R50), `0 <= ssize <= STACK_CAP` (10_state.md R31), and every
free stack slot holds 0 (20_memory.md R58; slot `j` counts from the stack bottom, R53). -/
structure State.Inv (s : State) : Prop where
  cfgValid : s.cfg.valid = true
  memWf : Memory.wf s.mem = true
  memInside : ∀ c ∈ s.mem, c.1 < 4 * s.cfg.memSize
  ssizeLe : s.ssize ≤ s.cfg.stackCap
  freeZero : ∀ j, j < s.cfg.stackCap → s.ssize ≤ j → Memory.word s.mem (s.cfg.memSize - 1 - j) = 0

/-- The instructions with one operand word, a register index (format FR of 30_encoding.md R81). -/
def HasFormFR (i : Instr) (r : Word) : Prop :=
  i ∈ ([.add r, .sub r, .mul r, .div r, .inc r, .dec r, .inp r, .get r, .out r, .put r, .push r, .pop r] : List Instr)

/-- The instructions that never write the Result register (10_state.md R25). -/
def keepsResult : Instr → Bool
  | .nop => true
  | .halt => true
  | .add _ => false
  | .sub _ => false
  | .mul _ => false
  | .div _ => false
  | .inc _ => false
  | .dec _ => false
  | .loop _ => true
  | .movr _ _ => false
  | .load _ _ => false
  | .store _ _ => true
  | .inp _ => false
  | .get _ => false
  | .out _ => true
  | .put _ => true
  | .swap _ _ => false
  | .push _ => true
  | .pop _ => false
  | .cmp _ _ => false
  | .jmp _ => true
  | .jz _ => true
  | .jnz _ => true
  | .jgt _ => true
  | .call _ _ => true
  | .ret => true

/-- The value of a string of ASCII digits, most significant first (46_io.md R206, R207). -/
def asciiValue (ds : List Byte) : Nat := Nat.ofDigits 10 (ds.reverse.map fun b => b.toNat - 0x30)

/-- A byte is an ASCII digit. -/
def AsciiDigit (b : Byte) : Prop := 0x30 ≤ b.toNat ∧ b.toNat ≤ 0x39

/-- A byte is one of the six whitespace bytes of 46_io.md R206. -/
def Whitespace (b : Byte) : Prop := b ∈ ([0x20, 0x09, 0x0A, 0x0B, 0x0C, 0x0D] : List Byte)

/-- The number a sign and a digit string stand for. -/
def tokenValue (sign ds : List Byte) : Int :=
  if sign = [0x2D] then -(asciiValue ds : Int) else (asciiValue ds : Int)

end Sys2Proof.Machine
end

