-- ==== Sys2Proof/Certificates/Slice0/Obligations.lean ====
section
/-! DEFINITION. The statements for the provers, in the order of the spec's files. A statement about every state is
about every configuration too, since the configuration is part of the state. -/

open Sys2Proof Sys2Proof.Machine

/-! ## Encoding -/

/-- A few words written out from the opcode map (30_encoding.md R86; R87 for the decimal opcodes 19 to 23) and the byte
example of R91, one at least for every family; `0x00000101` is not HALT (R82) and `-1` is no opcode (R90). -/
def Obligations.OpcodeWordsDecodeToTheirInstructions : Prop :=
  decode [0x00000000] = .instr .nop [] ∧
  decode [0x00000001] = .instr .halt [] ∧
  decode [0x00000002, 1] = .instr (.add 1) [] ∧
  decode [0x00000013, 1, 2] = .instr (.cmp 1 2) [] ∧
  decode [0x00000010, 0, 4] = .instr (.swap 0 4) [] ∧
  decode [0x0000000B, 2, 0xFFFFFFFF] = .instr (.store 2 0xFFFFFFFF) [] ∧
  decode [0x00000018, 7, 6] = .instr (.call 7 6) [] ∧
  decode [0x00000019] = .instr .ret [] ∧
  decode [0x0000000C, 0] = .instr (.inp 0) [] ∧
  decode [0x00000101] = .rejected (.illegalOpcode 0x00000101) ∧
  decode [0xFFFFFFFF] = .rejected (.illegalOpcode 0xFFFFFFFF) ∧
  decodeBytes [0x09, 0, 0, 0, 0, 0, 0, 0, 5, 0, 0, 0] = .instr (.movr 0 5) []

/-- Decoding the bytes of any instruction gives it back, with every operand at every value, whatever bytes follow
(30_encoding.md R80 to R86, R91). -/
def Obligations.DecodeOfEncodedBytesGivesInstruction : Prop :=
  ∀ (i : Instr) (rest : List Byte), decodeBytes (encodeBytes i ++ rest) = .instr i rest

/-- The other direction: a stream that decodes is the encoding of what it decodes to, so no bit of a word is ignored
and two instructions share no encoding (30_encoding.md R82, R83; D23). -/
def Obligations.DecodedWordsAreTheEncoding : Prop :=
  ∀ (ws rest : List Word) (i : Instr), decode ws = .instr i rest → ws = encode i ++ rest

/-- The opcode words the decoder rejects by name are exactly those below 0 or above 25 (30_encoding.md R82, R90; the
whole-word comparison is the spec's decision D23). -/
def Obligations.IllegalOpcodesAreThoseOutsideZeroTo25 : Prop :=
  ∀ (w : Word) (ops : List Word),
    decode (w :: ops) = .rejected (.illegalOpcode w) ↔ (w.toInt < 0 ∨ 25 < w.toInt)

/-! ## The engine -/

/-- 40_engine.md R101: in any status but Ok a STEP changes nothing at all, devices included, and returns FAIL. -/
def Obligations.StepRefusedUnlessStatusOk : Prop :=
  ∀ s : State, s.status ≠ .ok → step s = .next s ∧ stepResult s = some .fail

/-- 40_engine.md R102, with `EOS = MEM_SIZE - STACK_CAP - 1` (00_scope.md R7, the spec's decision D1): a `pc` outside
`[0, EOS]` raises InvalidAddress and changes nothing else; every STEP does so when `EOS = -1`; `pc = EOS` is legal,
shown by a NOP there. -/
def Obligations.PcOutsideCodeRegionRaisesInvalidAddress : Prop :=
  ∀ s : State, s.status = .ok →
    (s.pc.toInt < 0 ∨ (s.cfg.memSize : Int) - s.cfg.stackCap - 1 < s.pc.toInt →
      step s = .next { s with status := .invalidAddress } ∧ stepResult s = some .fail) ∧
    (s.cfg.memSize = s.cfg.stackCap →
      step s = .next { s with status := .invalidAddress } ∧ stepResult s = some .fail) ∧
    (0 ≤ s.pc.toInt → s.pc.toInt = (s.cfg.memSize : Int) - s.cfg.stackCap - 1 → s.memRead s.pc.toInt = some 0 →
      step s = .next { s with pc := s.pc + 1 } ∧ stepResult s = some .success)

/-- 40_engine.md R103 with 30_encoding.md R90: a word that is no opcode raises IllegalInstruction, with `pc` left on it and
nothing else changed (the whole-word test is D23). -/
def Obligations.UnknownOpcodeRaisesIllegalInstruction : Prop :=
  ∀ (s : State) (w : Word), s.status = .ok → 0 ≤ s.pc.toInt → s.pc.toInt ≤ endOfStack s.cfg →
    s.memRead s.pc.toInt = some w → (w.toInt < 0 ∨ 25 < w.toInt) →
    step s = .next { s with status := .illegalInstruction } ∧ stepResult s = some .fail

/-- 40_engine.md R100, R103: when `pc` is in range and the words from `pc` on are those of an instruction, the step is that
instruction's `exec`, which does steps 6 to 10 (the operand words skipped, the effect, the status, the one more). The operand
words may lie in the stack region (20_memory.md R60, D8). -/
def Obligations.StepRunsTheDecodedInstruction : Prop :=
  ∀ (s : State) (i : Instr), s.status = .ok → 0 ≤ s.pc.toInt → s.pc.toInt ≤ endOfStack s.cfg →
    (∀ (j : Nat) (w : Word), (encode i)[j]? = some w → s.memRead (s.pc.toInt + j) = some w) →
    step s = exec i s

/-- 20_memory.md R60, second bullet (the spec's decision D7): an operand word outside the memory raises InvalidAddress before
`pc` is advanced, with no other change. -/
def Obligations.OperandOutsideMemoryRaisesInvalidAddress : Prop :=
  ∀ (s : State) (i : Instr), s.status = .ok → 0 ≤ s.pc.toInt → s.pc.toInt ≤ endOfStack s.cfg →
    s.memRead s.pc.toInt = some i.opcode → (s.cfg.memSize : Int) ≤ s.pc.toInt + i.operandCount →
    step s = .next { s with status := .invalidAddress } ∧ stepResult s = some .fail

/-- 30_encoding.md R85, 40_engine.md R104, R106 (advance before validation in every instruction is the spec's decision D34): a
register-index operand outside `[0,4]` raises IllegalOperand in all 17 instructions that have one, with `pc = pc0 + k` and
nothing else changed, whatever else the instruction might have raised (60_exceptions.md R224). -/
def Obligations.IllegalRegisterOperandRaises : Prop :=
  ∀ (s : State) (w : Word), NamesNone w →
    (∀ i : Instr, HasFormFR i w → exec i s = .next (raisedState .illegalOperand 1 s)) ∧
    (∀ n : Word,
      exec (.movr w n) s = .next (raisedState .illegalOperand 2 s) ∧
      exec (.load w n) s = .next (raisedState .illegalOperand 2 s) ∧
      exec (.store w n) s = .next (raisedState .illegalOperand 2 s)) ∧
    (∀ u : Word,
      exec (.swap w u) s = .next (raisedState .illegalOperand 2 s) ∧
      exec (.swap u w) s = .next (raisedState .illegalOperand 2 s) ∧
      exec (.cmp w u) s = .next (raisedState .illegalOperand 2 s) ∧
      exec (.cmp u w) s = .next (raisedState .illegalOperand 2 s))

/-- 60_exceptions.md R223, R224 (marked derived there): a step that leaves an error status changes `status`, and `pc` by at most
the operand count; of the devices only the input, which loses leading whitespace on IoError (46_io.md R206, the spec's
decision D15). -/
def Obligations.FailingStepChangesOnlyStatusAndPc : Prop :=
  ∀ s t : State, s.status = .ok → step s = .next t → t.status ≠ .ok → t.status ≠ .halted →
    t.regs = s.regs ∧ t.mem = s.mem ∧ t.ssize = s.ssize ∧ t.cfg = s.cfg ∧ t.output = s.output ∧
    (∃ k, k ≤ 2 ∧ t.pc = s.pc + BitVec.ofNat 32 k) ∧
    t.input.ended = s.input.ended ∧
    t.input.bytes = if t.status = .ioError then s.input.bytes.dropWhile isSpace else s.input.bytes

/-- 40_engine.md R110, R112 (D19, D20): what a RUN that returns has done. A result 0 only for a budget of 0 or less; a positive
count within the budget, stopped by HALT or by the budget; a negative count within the budget, on an error status, or -1 with
nothing changed when the machine was inert already. -/
def Obligations.RunResultSaysHowItStopped : Prop :=
  (∀ (b c : Int) (s t : State), run b s = (.count c, t.idle) →
    (c = 0 ∧ b ≤ 0 ∧ t = s) ∨
    (0 < c ∧ c ≤ b ∧ (t.status = .halted ∨ (c = b ∧ t.status = .ok))) ∨
    (c < 0 ∧ -c ≤ b ∧ t.status ≠ .ok ∧ (t.status = .halted → c = -1 ∧ t = s))) ∧
  (∀ (b : Int) (s : State), s.status ≠ .ok → 1 ≤ b → run b s = (.count (-1), s.idle)) ∧
  (∀ (b : Int) (s : State), b ≤ 0 → run b s = (.count 0, s.idle))

/-- 40_engine.md R113: RUN adds nothing to STEP; its state is that of as many single steps as its count says. -/
def Obligations.RunIsIteratedStep : Prop :=
  ∀ (b c : Int) (s t : State), run b s = (.count c, t.idle) → Host.Core.run Sys2Proof.core c.natAbs s = .next t

/-- 70_reset_and_hazards.md R264 (marked derived; D1): with nothing but zero words from `pc` to `EOS`, RUN steps through them as
NOPs and then fails with InvalidAddress and `pc = EOS + 1`; nothing else has changed. -/
def Obligations.FallingOffTheEndRaisesInvalidAddress : Prop :=
  ∀ (s : State) (n : Nat), s.status = .ok → s.cfg.valid = true → 0 ≤ s.pc.toInt →
    s.pc.toInt + n = (s.cfg.memSize : Int) - s.cfg.stackCap →
    (∀ j : Nat, j < n → s.memRead (s.pc.toInt + j) = some 0) →
    ∀ b : Int, (n : Int) < b →
      run b s = (.count (-(n + 1)), State.idle { s with pc := s.pc + BitVec.ofNat 32 n, status := .invalidAddress })

/-! ## System -/

/-- 41_system.md R120: NOP completes and changes nothing but `pc`; the all-zero word is NOP. -/
def Obligations.NopOnlyAdvancesPc : Prop :=
  encode .nop = [0] ∧ ∀ s : State, exec .nop s = .next { s with pc := s.pc + 1, status := .ok }

/-- 41_system.md R121, 40_engine.md R105 (`pc0 + 1` after HALT is the spec's inference, D33): HALT completes with the status
Halted and nothing else changed, and the next step is refused. -/
def Obligations.HaltSetsHaltedAndStopsTheMachine : Prop :=
  encode .halt = [1] ∧ ∀ s : State, ∃ t, exec .halt s = .next t ∧
    t = { s with pc := s.pc + 1, status := .halted } ∧ step t = .next t ∧ stepResult t = some .fail

/-! ## Arithmetic -/

/-- 42_arithmetic.md R131, R132, R133, R139: ADD, SUB and MUL complete for every register operand; A takes the exact result
reduced to a word (the wrap-around is the spec's decision D4; log 5), Result mirrors it, and nothing else changes. -/
def Obligations.AddSubMulWriteAAndResult : Prop :=
  ∀ (s : State) (w : Word) (q : Reg), Names w q →
    (∃ t, exec (.add w) s = .next t ∧
      WrapsTo ((s.getReg .A).toInt + (s.getReg q).toInt) (t.getReg .A) ∧
      t.getReg .RES = t.getReg .A ∧ OnlyRegs [.A, .RES] s t ∧ Completed 1 s t) ∧
    (∃ t, exec (.sub w) s = .next t ∧
      WrapsTo ((s.getReg .A).toInt - (s.getReg q).toInt) (t.getReg .A) ∧
      t.getReg .RES = t.getReg .A ∧ OnlyRegs [.A, .RES] s t ∧ Completed 1 s t) ∧
    (∃ t, exec (.mul w) s = .next t ∧
      WrapsTo ((s.getReg .A).toInt * (s.getReg q).toInt) (t.getReg .A) ∧
      t.getReg .RES = t.getReg .A ∧ OnlyRegs [.A, .RES] s t ∧ Completed 1 s t)

/-- 42_arithmetic.md R134, R138: DIV by a register that is not zero completes, A takes the quotient rounded toward zero and
Result mirrors it (only `INT_MIN / -1` leaves the range, and wraps by the spec's decision D5; log 5); DIV by zero raises
DivisionByZero with `pc = pc0 + 1` and no register changed. -/
def Obligations.DivTruncatesOrRaisesDivisionByZero : Prop :=
  ∀ (s : State) (w : Word) (q : Reg), Names w q →
    (s.getReg q ≠ 0 → ∃ t, exec (.div w) s = .next t ∧
      WrapsTo (Int.tdiv (s.getReg .A).toInt (s.getReg q).toInt) (t.getReg .A) ∧
      (¬ ((s.getReg .A).toInt = intMin ∧ (s.getReg q).toInt = -1) →
        (t.getReg .A).toInt = Int.tdiv (s.getReg .A).toInt (s.getReg q).toInt) ∧
      t.getReg .RES = t.getReg .A ∧ OnlyRegs [.A, .RES] s t ∧ Completed 1 s t) ∧
    (s.getReg q = 0 → exec (.div w) s = .next (raisedState .divisionByZero 1 s))

/-- 42_arithmetic.md R135, R136, R139: INC and DEC complete for every register operand (the wrap-around is D4; log 5). -/
def Obligations.IncDecAdjustTheRegisterAndResult : Prop :=
  ∀ (s : State) (w : Word) (q : Reg), Names w q →
    (∃ t, exec (.inc w) s = .next t ∧ WrapsTo ((s.getReg q).toInt + 1) (t.getReg q) ∧
      t.getReg .RES = t.getReg q ∧ OnlyRegs [q, .RES] s t ∧ Completed 1 s t) ∧
    (∃ t, exec (.dec w) s = .next t ∧ WrapsTo ((s.getReg q).toInt - 1) (t.getReg q) ∧
      t.getReg .RES = t.getReg q ∧ OnlyRegs [q, .RES] s t ∧ Completed 1 s t)

/-- 42_arithmetic.md R137: CMP completes and writes only Result, with the difference reduced to a word (D4; log 5); that is zero
exactly when the operands are equal. -/
def Obligations.CmpWritesOnlyTheResult : Prop :=
  ∀ (s : State) (w1 w2 : Word) (q1 q2 : Reg), Names w1 q1 → Names w2 q2 →
    ∃ t, exec (.cmp w1 w2) s = .next t ∧
      WrapsTo ((s.getReg q1).toInt - (s.getReg q2).toInt) (t.getReg .RES) ∧
      (t.getReg .RES = 0 ↔ s.getReg q1 = s.getReg q2) ∧
      OnlyRegs [.RES] s t ∧ Completed 2 s t

/-- 10_state.md R25: NOP, HALT, LOOP, JMP, JZ, JNZ, JGT, CALL, RET, PUSH, STORE, OUT and PUT never write the Result register. -/
def Obligations.ResultRegisterKeptByThirteenInstructions : Prop :=
  ∀ (i : Instr) (s t : State), keepsResult i = true → exec i s = .next t → t.getReg .RES = s.getReg .RES

/-! ## Data move -/

/-- 43_data_move.md R150: MOVR completes for every register operand and writes the immediate as it is. -/
def Obligations.MovrWritesTheImmediate : Prop :=
  ∀ (s : State) (w n : Word) (q : Reg), Names w q →
    ∃ t, exec (.movr w n) s = .next t ∧ t.getReg q = n ∧ OnlyRegs [q] s t ∧ Completed 2 s t

/-- 43_data_move.md R151: SWAP completes for every pair of registers, the same one twice included. -/
def Obligations.SwapExchangesTwoRegisters : Prop :=
  ∀ (s : State) (w1 w2 : Word) (q1 q2 : Reg), Names w1 q1 → Names w2 q2 →
    ∃ t, exec (.swap w1 w2) s = .next t ∧ t.getReg q1 = s.getReg q2 ∧ t.getReg q2 = s.getReg q1 ∧
      OnlyRegs [q1, q2] s t ∧ Completed 2 s t

/-! ## Stack -/

/-- 44_stack.md R160, 20_memory.md R55: with a free slot PUSH completes; the register's word stands in slot
`SB - ssize` (the index formula is D37), the counter grows by one, and nothing else changes. -/
def Obligations.PushStoresInTheNextSlot : Prop :=
  ∀ (s : State) (w : Word) (q : Reg), Names w q → s.ssize < s.cfg.stackCap → s.cfg.stackCap ≤ s.cfg.memSize →
    Memory.wf s.mem = true →
    ∃ t, exec (.push w) s = .next t ∧
      s.pushIndex = (s.cfg.memSize : Int) - 1 - s.ssize ∧
      t.memRead s.pushIndex = some (s.getReg q) ∧ t.ssize = s.ssize + 1 ∧
      OnlyWord [] s.pushIndex s t ∧ Completed 1 s t

/-- 44_stack.md R161, 20_memory.md R56: with an occupied slot POP completes; the register takes the old top, the vacated slot
reads zero, the counter falls by one, and nothing else changes. -/
def Obligations.PopTakesTheTopAndZeroesIt : Prop :=
  ∀ (s : State) (w : Word) (q : Reg), Names w q → 0 < s.ssize → s.ssize ≤ s.cfg.memSize → Memory.wf s.mem = true →
    ∃ t, exec (.pop w) s = .next t ∧
      s.topIndex = (s.cfg.memSize : Int) - s.ssize ∧
      s.memRead s.topIndex = some (t.getReg q) ∧ t.memRead s.topIndex = some 0 ∧ t.ssize + 1 = s.ssize ∧
      OnlyWord [q] s.topIndex s t ∧ Completed 1 s t

/-- 44_stack.md R162, R164 (the exact sum is the spec's decision D6), 20_memory.md R57: with `0 <= D + n < ssize` LOAD completes
and the register takes the word that many slots below the top; nothing else changes. -/
def Obligations.LoadReadsTheSlotBelowTheTop : Prop :=
  ∀ (s : State) (w n : Word) (q : Reg), Names w q →
    0 ≤ (s.getReg .D).toInt + n.toInt → (s.getReg .D).toInt + n.toInt < s.ssize → s.ssize ≤ s.cfg.memSize →
    ∃ t, exec (.load w n) s = .next t ∧
      s.memRead ((s.cfg.memSize : Int) - s.ssize + ((s.getReg .D).toInt + n.toInt)) = some (t.getReg q) ∧
      OnlyRegs [q] s t ∧ Completed 2 s t

/-- 44_stack.md R163, R164 (D6), 20_memory.md R57: under the same bounds STORE completes and the slot reads the register's word;
every register, every other byte and the counter are as before. -/
def Obligations.StoreWritesTheSlotBelowTheTop : Prop :=
  ∀ (s : State) (w n : Word) (q : Reg), Names w q →
    0 ≤ (s.getReg .D).toInt + n.toInt → (s.getReg .D).toInt + n.toInt < s.ssize → s.ssize ≤ s.cfg.memSize →
    Memory.wf s.mem = true →
    ∃ t, exec (.store w n) s = .next t ∧
      s.topIndex + s.stackOffset n = (s.cfg.memSize : Int) - s.ssize + ((s.getReg .D).toInt + n.toInt) ∧
      t.memRead (s.topIndex + s.stackOffset n) = some (s.getReg q) ∧ t.ssize = s.ssize ∧
      OnlyWord [] (s.topIndex + s.stackOffset n) s t ∧ Completed 2 s t

/-- 60_exceptions.md R221, 44_stack.md R160 to R165 (D6), 45_control_flow.md R186, R187: when the stack operations raise
InvalidStackOperation, with `pc = pc0 + k` and memory, registers and counter as before. -/
def Obligations.StackBoundsRaiseInvalidStackOperation : Prop :=
  ∀ (s : State) (w n m : Word) (q : Reg), Names w q →
    (s.ssize = s.cfg.stackCap →
      exec (.push w) s = .next (raisedState .invalidStackOperation 1 s) ∧
      exec (.call n m) s = .next (raisedState .invalidStackOperation 2 s)) ∧
    (s.ssize = 0 →
      exec (.pop w) s = .next (raisedState .invalidStackOperation 1 s) ∧
      exec .ret s = .next (raisedState .invalidStackOperation 0 s)) ∧
    ((s.getReg .D).toInt + n.toInt < 0 ∨ s.ssize = 0 ∨ (s.ssize : Int) ≤ (s.getReg .D).toInt + n.toInt →
      exec (.load w n) s = .next (raisedState .invalidStackOperation 2 s) ∧
      exec (.store w n) s = .next (raisedState .invalidStackOperation 2 s))

/-- 44_stack.md R161 (corner cases): PUSH then POP copies the pushed register to the popped one and leaves memory, as data, and
the counter as they were. Rests on the zero in free slots (20_memory.md R58, D10). -/
def Obligations.PushThenPopCopiesAndRestoresTheStack : Prop :=
  ∀ (s : State) (w1 w2 : Word) (q1 q2 : Reg), s.Inv → Names w1 q1 → Names w2 q2 → s.ssize < s.cfg.stackCap →
    ∃ u, exec (.push w1) s = .next u ∧
      exec (.pop w2) u = .next { s.setReg q2 (s.getReg q1) with pc := s.pc + 4, status := .ok }

/-- 10_state.md R31, the stack counter's bound: zero after create and after reset, kept by every step, and PUSH, CALL, POP and
RET raise instead of passing it, with `pc = pc0 + k` and nothing else changed (40_engine.md R106; that `pc` is past the operand
words is the spec's decision D34, log 12). -/
def Obligations.StackCounterStaysWithinCapacity : Prop :=
  (∀ (cfg : Config) (image : List Word) (input : InDev) (output : List Byte) (s : State),
    create cfg image input output = some s → s.ssize = 0 ∧ s.ssize ≤ s.cfg.stackCap) ∧
  (∀ s : State, s.softReset.ssize = 0 ∧ s.softReset.ssize ≤ s.softReset.cfg.stackCap) ∧
  (∀ s t : State, s.ssize ≤ s.cfg.stackCap → step s = .next t → t.ssize ≤ t.cfg.stackCap) ∧
  (∀ (s : State) (w n m : Word) (q : Reg), Names w q →
    (s.ssize = s.cfg.stackCap →
      exec (.push w) s = .next (raisedState .invalidStackOperation 1 s) ∧
      exec (.call n m) s = .next (raisedState .invalidStackOperation 2 s)) ∧
    (s.ssize = 0 →
      exec (.pop w) s = .next (raisedState .invalidStackOperation 1 s) ∧
      exec .ret s = .next (raisedState .invalidStackOperation 0 s)))

/-! ## Control flow -/

/-- 45_control_flow.md R182: JMP completes for every target word and changes nothing but `pc`; a JMP to itself stays where it is,
and after `JMP -1` the next step raises InvalidAddress with `pc = -1`. -/
def Obligations.JmpSetsPcToItsOperand : Prop :=
  ∀ (s : State) (addr : Word), encode (.jmp addr) = [20, addr] ∧
    exec (.jmp addr) s = .next { s with pc := addr, status := .ok } ∧
    exec (.jmp s.pc) s = .next { s with status := .ok } ∧
    ∃ t, exec (.jmp (-1)) s = .next t ∧ step t = .next { t with status := .invalidAddress } ∧ t.pc = -1

/-- 45_control_flow.md R183, R184, R185: JZ, JNZ and JGT complete; they jump on Result equal to zero, not equal to zero and
greater than zero, fall through to `pc0 + 2` otherwise, and change nothing else; after every create and after a reset JZ is
taken. -/
def Obligations.ConditionalJumpsTestTheResult : Prop :=
  ∀ (s : State) (addr : Word),
    encode (.jz addr) = [21, addr] ∧ encode (.jnz addr) = [22, addr] ∧ encode (.jgt addr) = [23, addr] ∧
    exec (.jz addr) s = .next { s with pc := if s.getReg .RES = 0 then addr else s.pc + 2, status := .ok } ∧
    exec (.jnz addr) s = .next { s with pc := if s.getReg .RES ≠ 0 then addr else s.pc + 2, status := .ok } ∧
    exec (.jgt addr) s = .next { s with pc := if 1 ≤ (s.getReg .RES).toInt then addr else s.pc + 2, status := .ok } ∧
    exec (.jz addr) s.softReset = .next { s.softReset with pc := addr, status := .ok } ∧
    (∀ (cfg : Config) (image : List Word) (input : InDev) (output : List Byte) (t : State),
      create cfg image input output = some t → exec (.jz addr) t = .next { t with pc := addr, status := .ok })

/-- 45_control_flow.md R181 (C2: the next fetch is at `addr` itself): LOOP completes, jumps when C is not zero, negative
included, falls through otherwise, and changes no register, C included. -/
def Obligations.LoopJumpsWhileCIsNotZero : Prop :=
  ∀ (s : State) (addr : Word), encode (.loop addr) = [8, addr] ∧
    exec (.loop addr) s = .next { s with pc := if s.getReg .C ≠ 0 then addr else s.pc + 2, status := .ok }

/-- 45_control_flow.md R186, 20_memory.md R55 (index formula D37): with a free slot CALL completes; `retaddr` stands in the next
slot, the counter grows by one, `pc` is `addr`, and nothing else changes. -/
def Obligations.CallPushesAndJumps : Prop :=
  ∀ (s : State) (addr retaddr : Word), s.ssize < s.cfg.stackCap → s.cfg.stackCap ≤ s.cfg.memSize →
    Memory.wf s.mem = true →
    ∃ t, exec (.call addr retaddr) s = .next t ∧ t.memRead s.pushIndex = some retaddr ∧ t.ssize = s.ssize + 1 ∧
      OnlyWord [] s.pushIndex s t ∧ t.pc = addr ∧ t.status = .ok

/-- 45_control_flow.md R187, 20_memory.md R56: with an occupied slot RET completes; `pc` takes the old top, the vacated slot reads
zero (the spec's decision D10; log 5), the counter falls by one, and nothing else changes. -/
def Obligations.RetPopsAndJumps : Prop :=
  ∀ s : State, 0 < s.ssize → s.ssize ≤ s.cfg.memSize → Memory.wf s.mem = true →
    ∃ t, exec .ret s = .next t ∧ s.memRead s.topIndex = some t.pc ∧ t.memRead s.topIndex = some 0 ∧
      t.ssize + 1 = s.ssize ∧ OnlyWord [] s.topIndex s t ∧ t.status = .ok

/-- 45_control_flow.md R188 (marked derived): CALL, a subroutine that leaves the stack as it found it, then RET, ends at the
return address the program gave (`pc0 + 3` is the instruction after the CALL), with the stack as before the CALL. That memory is
as before rests on the zero in free slots (20_memory.md R58) and on RET zeroing the slot it frees (20_memory.md R56; the spec's
decision D10, log 5). -/
def Obligations.CallThenReturnRestoresTheStack : Prop :=
  ∀ (s : State) (addr retaddr : Word), s.Inv → s.ssize < s.cfg.stackCap →
    ∃ u, exec (.call addr retaddr) s = .next u ∧ u.pc = addr ∧
      ∀ v : State, v.cfg = u.cfg → v.mem = u.mem → v.ssize = u.ssize →
        exec .ret v = .next { v with mem := s.mem, ssize := s.ssize, pc := retaddr, status := .ok }

/-! ## Input and output -/

/-- 46_io.md R201, R205: IN stores the integer the device gives and completes; when the device gives none it raises IoError with
no register changed (D15); while the device has no answer nothing changes at all (log 6). -/
def Obligations.InReadsAnIntegerOrRaisesIoError : Prop :=
  ∀ (s : State) (w : Word) (q : Reg), Names w q →
    (∀ (v : Word) (d : InDev), s.input.readInt = .int v d →
      ∃ t, exec (.inp w) s = .next t ∧ t.getReg q = v ∧ t.input = d ∧
        OnlyRegs [q] s { t with input := s.input } ∧ Completed 1 s t) ∧
    (∀ d : InDev, s.input.readInt = .fail d →
      exec (.inp w) s = .next { raisedState .ioError 1 s with input := d }) ∧
    (s.input.readInt = .wait → exec (.inp w) s = .next s ∧ waitsForInput (.inp w) s = true)

/-- 46_io.md R206 (the grammar is the spec's decision D13, D14): after whitespace an optional sign and the longest string of digits
are an integer, taken when it fits a signed word and refused, with the token left in the stream, when it does not. -/
def Obligations.ReaderAcceptsSignedDecimal : Prop :=
  ∀ (ws sign ds rest : List Byte) (ended : Bool),
    (∀ b ∈ ws, Whitespace b) → (sign = [] ∨ sign = [0x2D] ∨ sign = [0x2B]) → ds ≠ [] → (∀ b ∈ ds, AsciiDigit b) →
    (∀ b, rest.head? = some b → ¬ AsciiDigit b) → (rest = [] → ended = true) →
    (intMin ≤ tokenValue sign ds → tokenValue sign ds ≤ intMax →
      ∃ v : Word, v.toInt = tokenValue sign ds ∧
        InDev.readInt { bytes := ws ++ sign ++ ds ++ rest, ended := ended } =
          .int v { bytes := rest, ended := ended }) ∧
    (tokenValue sign ds < intMin ∨ intMax < tokenValue sign ds →
      InDev.readInt { bytes := ws ++ sign ++ ds ++ rest, ended := ended } =
        .fail { bytes := sign ++ ds ++ rest, ended := ended })

/-- 46_io.md R206 step 3, R205 (D13, D15): with no token the reader fails and has consumed the whitespace only; while the bytes that
have arrived end before the token is known to be complete, it waits (the last clause is the model's choice, DESIGN CHOICE, log 6). -/
def Obligations.ReaderFailsOrWaitsWithoutToken : Prop :=
  ∀ (ws sign ds rest : List Byte) (ended : Bool),
    (∀ b ∈ ws, Whitespace b) → (sign = [] ∨ sign = [0x2D] ∨ sign = [0x2B]) → (∀ b ∈ ds, AsciiDigit b) →
    (∀ b, rest.head? = some b → ¬ AsciiDigit b ∧ (sign = [] → ¬ Whitespace b ∧ b ≠ 0x2D ∧ b ≠ 0x2B)) →
    (ds = [] → (rest = [] → ended = true) →
      InDev.readInt { bytes := ws ++ sign ++ rest, ended := ended } =
        .fail { bytes := sign ++ rest, ended := ended }) ∧
    (InDev.readInt { bytes := ws ++ sign ++ ds, ended := false } = .wait)

/-- 46_io.md R202, R205: GET stores the next byte, zero-extended (D12), and completes; at end of stream it writes 0 to C and then -1
to the register (with `r = 2` C ends -1, D11) and completes; with neither nothing changes at all (log 6). -/
def Obligations.GetReadsAByteOrTheEndOfStream : Prop :=
  ∀ (s : State) (w : Word) (q : Reg), Names w q →
    (∀ (b : Byte) (bs : List Byte), s.input.bytes = b :: bs →
      ∃ t, exec (.get w) s = .next t ∧ (t.getReg q).toInt = b.toNat ∧
        t.input = { s.input with bytes := bs } ∧ OnlyRegs [q] s { t with input := s.input } ∧ Completed 1 s t) ∧
    (s.input.bytes = [] → s.input.ended = true →
      ∃ t, exec (.get w) s = .next t ∧ (t.getReg q).toInt = -1 ∧ (q ≠ .C → t.getReg .C = 0) ∧
        OnlyRegs [q, .C] s t ∧ Completed 1 s t) ∧
    (s.input.bytes = [] → s.input.ended = false →
      exec (.get w) s = .next s ∧ waitsForInput (.get w) s = true)

/-- 46_io.md R203, R207 (the text is the spec's decision D16): OUT completes; the output grows by a minus sign for a negative value
and the digits of its magnitude without leading zeros, and by nothing else; nothing else changes. -/
def Obligations.OutAppendsDecimalText : Prop :=
  ∀ (s : State) (w : Word) (q : Reg), Names w q →
    ∃ (t : State) (ds : List Byte), exec (.out w) s = .next t ∧
      t.output = s.output ++ ((if (s.getReg q).toInt < 0 then [0x2D] else []) ++ ds) ∧
      (∀ b ∈ ds, AsciiDigit b) ∧ asciiValue ds = (s.getReg q).toInt.natAbs ∧
      ds ≠ [] ∧ (ds.head? = some 0x30 → ds = [0x30]) ∧
      OnlyRegs [] s { t with output := s.output } ∧ Completed 1 s t

/-- 46_io.md R204 (D18): PUT of a value in `[0,255]` completes and the output grows by that byte; any other value raises
IllegalOperand with `pc = pc0 + 1` and nothing written. -/
def Obligations.PutAppendsOneByteOrRaises : Prop :=
  ∀ (s : State) (w : Word) (q : Reg), Names w q →
    (0 ≤ (s.getReg q).toInt → (s.getReg q).toInt ≤ 255 →
      ∃ (t : State) (b : Byte), exec (.put w) s = .next t ∧ t.output = s.output ++ [b] ∧
        (b.toNat : Int) = (s.getReg q).toInt ∧ OnlyRegs [] s { t with output := s.output } ∧ Completed 1 s t) ∧
    ((s.getReg q).toInt < 0 ∨ 255 < (s.getReg q).toInt →
      exec (.put w) s = .next (raisedState .illegalOperand 1 s))

/-- 46_io.md R206 against R207 (D13, D16): what OUT writes, IN reads back, for every word. -/
def Obligations.ReaderReadsBackWhatOutWrites : Prop :=
  ∀ v : Word, InDev.readInt { bytes := outDec v, ended := true } = .int v { bytes := [], ended := true }

/-- 10_state.md R34: no instruction reads the output back: a step does the same whatever was written before. -/
def Obligations.OutputIsNeverReadBack : Prop :=
  ∀ (s : State) (before : List Byte),
    step { s with output := before ++ s.output } =
      match step s with
      | .next t => .next { t with output := before ++ t.output }
      | .fault f => .fault f
      | .refused r => .refused r

/-! ## Power-on, reset, the host -/

/-- 10_state.md R38, 70_reset_and_hazards.md R250, R251, R258: create makes a machine exactly for a consistent configuration that holds
the image (D30); then registers, `pc` and `ssize` are 0, the status is Ok, memory is the image and zeros, and the invariant holds. -/
def Obligations.CreateGivesThePowerOnState : Prop :=
  ∀ (cfg : Config) (image : List Word) (input : InDev) (output : List Byte),
    ((create cfg image input output).isSome ↔
      cfg.stackCap ≤ cfg.memSize ∧ cfg.memSize ≤ 2 ^ 31 - 4 ∧ image.length + cfg.stackCap ≤ cfg.memSize) ∧
    (∀ s : State, create cfg image input output = some s →
      (∀ q, s.getReg q = 0) ∧ s.pc = 0 ∧ s.ssize = 0 ∧ s.status = .ok ∧ s.cfg = cfg ∧ s.input = input ∧
      s.output = output ∧ (∀ i : Nat, i < cfg.memSize → s.memRead i = some (image[i]?.getD 0)) ∧ s.Inv)

/-- 10_state.md R38: the state after power-on of the empty image, in the configuration of log 2 and with the devices of log 4 (the
model's choices). -/
def Obligations.ResetIsThePowerOnStateOfTheEmptyImage : Prop :=
  create { memSize := 1024, stackCap := 16 } [] { bytes := [], ended := true } [] = some State.reset ∧
    (∀ q, State.reset.getReg q = 0) ∧ State.reset.pc = 0 ∧ State.reset.ssize = 0 ∧ State.reset.status = .ok

/-- 10_state.md R39, 70_reset_and_hazards.md R252, R253 (D29): the host's reset, in any status, zeroes registers, counter, status and the
whole stack region, and leaves `pc`, every byte of the code/data region and both devices. -/
def Obligations.SoftResetClearsAllButPcAndCode : Prop :=
  ∀ s : State, ∃ t : State, command .reset s.idle = (.done, t.idle) ∧
    (∀ q, t.getReg q = 0) ∧ t.ssize = 0 ∧ t.status = .ok ∧ t.pc = s.pc ∧ t.cfg = s.cfg ∧
    t.input = s.input ∧ t.output = s.output ∧
    (∀ i : Nat, s.cfg.memSize - s.cfg.stackCap ≤ i → i < s.cfg.memSize → t.memRead i = some 0) ∧
    (∀ a : Nat, a < 4 * (s.cfg.memSize - s.cfg.stackCap) → Memory.byte t.mem a = Memory.byte s.mem a)

/-- 30_encoding.md R91, 70_reset_and_hazards.md R258, R259: the loader fails on a length that is no multiple of 4, and otherwise byte
`4 i + j` of the image is bits `8 j + 7` to `8 j` of word `i`. -/
def Obligations.LoaderAssemblesLittleEndianWords : Prop :=
  ∀ bs : List Byte,
    (bs.length % 4 ≠ 0 → loadWords bs = none) ∧
    (bs.length % 4 = 0 → ∃ ws, loadWords bs = some ws ∧ 4 * ws.length = bs.length ∧
      ∀ i j : Nat, j < 4 → i < ws.length →
        ∃ (w : Word) (b : Byte), ws[i]? = some w ∧ bs[4 * i + j]? = some b ∧ w.extractLsb' (8 * j) 8 = b)

/-- 80_host_interface.md R282: get_register gives the register and changes nothing; set_register sets it and changes nothing else, in
any status. An index outside 0 to 4 cannot be given. -/
def Obligations.RegisterAccessorsTouchOneRegister : Prop :=
  ∀ (s : State) (r : Reg) (v : Word),
    command (.getRegister r) s.idle = (.word (s.getReg r), s.idle) ∧
    ∃ t : State, command (.setRegister r v) s.idle = (.done, t.idle) ∧ t.getReg r = v ∧ OnlyRegs [r] s t ∧ t.pc = s.pc ∧
      t.status = s.status

/-- 80_host_interface.md R283, R285, R286 (D21, D32): the other accessors; only set_pc changes anything, and only `pc`. -/
def Obligations.OtherAccessorsReadOrSetPc : Prop :=
  ∀ (s : State) (v : Word) (i : Nat),
    command .getStackSize s.idle = (.size s.ssize, s.idle) ∧ command .getStatus s.idle = (.status s.status, s.idle) ∧
    command .getPc s.idle = (.word s.pc, s.idle) ∧ command (.setPc v) s.idle = (.done, State.idle { s with pc := v }) ∧
    (i < s.cfg.memSize → command (.getMemory i) s.idle = (.word (Memory.word s.mem i), s.idle))

/-- 10_state.md R32, 60_exceptions.md R233, R234: only the host's reset leaves a status other than Ok; no other
command, no move on the devices and no going on with a waiting command does. -/
def Obligations.OnlyResetLeavesAStatusOtherThanOk : Prop :=
  ∀ (e : Event) (σ : Session), σ.machine.status ≠ .ok → e ≠ .command .reset →
    (act e σ).2.machine.status = σ.machine.status

/-! ## Invariants -/

/-- The invariant `State.Inv` holds after power-on of the empty image (10_state.md R31, R38, 20_memory.md R58). -/
def Obligations.ResetSatisfiesTheInvariant : Prop := State.reset.Inv

/-- Every step keeps the invariant: the canonical, bounded memory, the bounded counter (10_state.md R31) and the zero in every free
stack slot (20_memory.md R58, which rests on D10). -/
def Obligations.StepKeepsTheInvariant : Prop := ∀ s t : State, s.Inv → step s = .next t → t.Inv

/-- Every host command, every move on the devices and every going on with a waiting command keeps the invariant
(80_host_interface.md R287; 20_memory.md R58, which rests on D10). -/
def Obligations.CommandsKeepTheInvariant : Prop :=
  ∀ (e : Event) (σ : Session), σ.machine.Inv → (act e σ).2.machine.Inv

/-- In a state that satisfies the invariant a step always answers a next state: no access leaves the memory and no instruction is
refused (20_memory.md R59, 60_exceptions.md R220). At an IN or GET that waits, the spec's STEP does not complete (40_engine.md R108,
46_io.md R205); that `step` then answers the unchanged state is the model's choice (DESIGN CHOICE, log 6). -/
def Obligations.StepAlwaysAnswersANextState : Prop := ∀ s : State, s.Inv → ∃ t, step s = .next t

/-- 20_memory.md R59, R70: no step writes the code/data region, and the parameters are constants (00_scope.md R7). -/
def Obligations.CodeRegionIsNeverWritten : Prop :=
  ∀ s t : State, s.Inv → step s = .next t →
    t.cfg = s.cfg ∧
    ∀ a : Nat, a < 4 * (s.cfg.memSize - s.cfg.stackCap) → Memory.byte t.mem a = Memory.byte s.mem a

/-! ## Commands in progress -/

/-- 80_host_interface.md R281, R287 (U6), 40_engine.md R108: while a command waits no command has any effect; a command is in progress
after a reply exactly when that reply is `waiting`, and then its STEP is blocked; a STEP that waits has changed nothing; the host
may move the devices all the same. The session that holds the command is the model's choice (DESIGN CHOICE, log 21), and so is
the unchanged state of a blocked STEP (log 6). -/
def Obligations.NoCommandWhileOneIsInProgress : Prop :=
  (∀ (c : Command) (call : Call) (s : State), command c (s.busy call) = (.noMove, s.busy call)) ∧
  (∀ (c : Command) (s : State), (command c s.idle).2.pending.isSome = true ↔ (command c s.idle).1 = .waiting) ∧
  (∀ (call : Call) (s : State),
    (resume (s.busy call)).2.pending.isSome = true ↔ (resume (s.busy call)).1 = .waiting) ∧
  (∀ (c : Command) (s : State), (command c s.idle).1 = .waiting →
    (command c s.idle).2.machine.status = .ok ∧ ∃ i, fetch (command c s.idle).2.machine = .instr i ∧
      waitsForInput i (command c s.idle).2.machine = true) ∧
  (∀ s : State, (command .step s.idle).1 = .waiting → (command .step s.idle).2 = s.busy .step) ∧
  (∀ (call : Call) (s : State) (bs : List Byte),
    act (.feed bs) (s.busy call) = (.done, (s.feedInput bs).busy call) ∧
    act .endInput (s.busy call) = (.done, s.endInput.busy call) ∧
    act .drain (s.busy call) = (.bytes s.output, State.busy { s with output := [] } call))

/-- 80_host_interface.md R287, 40_engine.md R108, R110, 46_io.md R205: a STEP or a RUN that waits, and is answered later with bytes or
with the end of the stream, goes on to exactly what the command would have done had the input been there when it was issued: the
same reply, the count of RUN included, and the same machine. How a waiting command goes on is the model's choice (DESIGN
CHOICE, log 6, log 21). -/
def Obligations.WaitingCommandResumesAsIfInputHadBeenThere : Prop :=
  ∀ (c : Command) (s t : State) (call : Call), command c s.idle = (.waiting, t.busy call) →
    (∀ bs : List Byte, resume (act (.feed bs) (t.busy call)).2 = command c (s.feedInput bs).idle) ∧
    resume (act .endInput (t.busy call)).2 = command c s.endInput.idle
end

