-- ==== Sys2Proof/Laws/Memory.lean ====
section
/-! SUPPORT. The laws of memory: read after write, what a write leaves, and the canonical form. -/

namespace Sys2Proof.Machine

/-! Words and their bytes. -/

/-- A word is the four bytes the image holds for it. -/
@[simp] theorem wordOfBytes_wordByte (w : Word) :
    wordOfBytes (wordByte w 0) (wordByte w 1) (wordByte w 2) (wordByte w 3) = w := by
  unfold wordOfBytes wordByte
  ext i hi
  simp only [BitVec.getElem_append, BitVec.getElem_extractLsb']
  have : i < 8 ∨ (8 ≤ i ∧ i < 16) ∨ (16 ≤ i ∧ i < 24) ∨ (24 ≤ i ∧ i < 32) := by omega
  rcases this with h | ⟨h1, h2⟩ | ⟨h1, h2⟩ | ⟨h1, h2⟩
  · simp [h, BitVec.getLsbD_eq_getElem hi]
  · have e : 8 + (i - 8) = i := by omega
    simp [show ¬ i < 8 by omega, show i - 8 < 8 by omega, e, BitVec.getLsbD_eq_getElem hi]
  · have e : 16 + (i - 8 - 8) = i := by omega
    simp [show ¬ i < 8 by omega, show ¬ i - 8 < 8 by omega, show i - 8 - 8 < 8 by omega, e,
      BitVec.getLsbD_eq_getElem hi]
  · have e : 24 + (i - 8 - 8 - 8) = i := by omega
    simp [show ¬ i < 8 by omega, show ¬ i - 8 < 8 by omega, show ¬ i - 8 - 8 < 8 by omega, e,
      BitVec.getLsbD_eq_getElem hi]

/-! One byte. -/

variable {m : Memory}

@[simp] theorem byte_nil (a : Nat) : Memory.byte [] a = 0 := rfl

/-- No cell at an address that no listed cell has reads as anything but zero. -/
theorem byte_of_not_listed {a : Nat} (h : ∀ c ∈ m, c.1 ≠ a) : Memory.byte m a = 0 := by
  induction m with
  | nil => rfl
  | cons c m ih =>
    have hc : ¬ a = c.1 := fun e => h c (by simp) e.symm
    simp only [Memory.byte, hc, if_false]
    exact ih fun d hd => h d (by simp [hd])

theorem wf_cons {k : Nat} {v : Byte} :
    Memory.wf ((k, v) :: m) = true ↔ v ≠ 0 ∧ (∀ c ∈ m, k < c.1) ∧ Memory.wf m = true := by
  simp only [Memory.wf, Bool.and_eq_true, decide_eq_true_eq, List.all_eq_true]
  exact ⟨fun h => ⟨h.1.1, h.1.2, h.2⟩, fun h => ⟨⟨h.1, h.2.1⟩, h.2.2⟩⟩

/-- A write of one byte leaves every other byte, in any memory. -/
theorem byte_setByte_ne {a a' : Nat} {b : Byte} (h : a' ≠ a) :
    Memory.byte (Memory.setByte m a b) a' = Memory.byte m a' := by
  induction m with
  | nil =>
    simp only [Memory.setByte]
    split <;> simp [Memory.byte, h, Memory.blank]
  | cons c m ih =>
    obtain ⟨k, v⟩ := c
    simp only [Memory.setByte]
    split
    · split <;> simp [Memory.byte, h]
    · split
      · subst_vars
        split <;> simp [Memory.byte, h]
      · simp only [Memory.byte, ih]

/-- A read after a write of one byte, in a canonical memory. -/
theorem byte_setByte_same {a : Nat} {b : Byte} (hm : Memory.wf m = true) :
    Memory.byte (Memory.setByte m a b) a = b := by
  induction m with
  | nil =>
    simp only [Memory.setByte]
    split
    · simp_all [Memory.byte, Memory.blank]
    · simp [Memory.byte]
  | cons c m ih =>
    obtain ⟨k, v⟩ := c
    obtain ⟨_, hall, hm'⟩ := wf_cons.mp hm
    simp only [Memory.setByte]
    split
    · rename_i hlt
      split
      · rename_i hb
        have hne : ¬ a = k := by omega
        have := byte_of_not_listed (m := m) (a := a) fun c hc => by have := hall c hc; omega
        simp [Memory.byte, hne, this, hb, Memory.blank]
      · simp [Memory.byte]
    · split
      · subst_vars
        split
        · rename_i hb
          rw [byte_of_not_listed fun c hc => by have := hall c hc; omega, hb]
          rfl
        · simp [Memory.byte]
      · rename_i hne
        simp only [Memory.byte, hne, if_false]
        exact ih hm'

/-- The cells of a memory after a write are old ones, or the one written. -/
theorem mem_setByte {a : Nat} {b : Byte} {c : Host.Cell} (h : c ∈ Memory.setByte m a b) :
    c ∈ m ∨ c.1 = a := by
  induction m with
  | nil =>
    simp only [Memory.setByte] at h
    split at h <;> simp_all
  | cons d m ih =>
    obtain ⟨k, v⟩ := d
    simp only [Memory.setByte] at h
    split at h
    · split at h
      · exact .inl h
      · rcases List.mem_cons.mp h with h | h
        · exact .inr (by rw [h])
        · exact .inl h
    · split at h
      · split at h
        · exact .inl (List.mem_cons_of_mem _ h)
        · rcases List.mem_cons.mp h with h | h
          · exact .inr (by rw [h])
          · exact .inl (List.mem_cons_of_mem _ h)
      · rcases List.mem_cons.mp h with h | h
        · exact .inl (by simp [h])
        · rcases ih h with h | h
          · exact .inl (List.mem_cons_of_mem _ h)
          · exact .inr h

/-- A write of one byte keeps the canonical form. -/
theorem wf_setByte {a : Nat} {b : Byte} (hm : Memory.wf m = true) :
    Memory.wf (Memory.setByte m a b) = true := by
  induction m with
  | nil =>
    simp only [Memory.setByte]
    split
    · rfl
    · rename_i hb
      exact wf_cons.mpr ⟨hb, by simp, rfl⟩
  | cons c m ih =>
    obtain ⟨k, v⟩ := c
    obtain ⟨hv, hall, hm'⟩ := wf_cons.mp hm
    simp only [Memory.setByte]
    split
    · rename_i hlt
      split
      · exact hm
      · rename_i hb
        refine wf_cons.mpr ⟨hb, ?_, hm⟩
        intro c hc
        rcases List.mem_cons.mp hc with h | h
        · rw [h]; exact hlt
        · have := hall c h; omega
    · split
      · rename_i heq
        split
        · exact hm'
        · rename_i hb
          exact wf_cons.mpr ⟨hb, fun c hc => by have := hall c hc; omega, hm'⟩
      · refine wf_cons.mpr ⟨hv, ?_, ih hm'⟩
        intro c hc
        rcases mem_setByte hc with h | h
        · exact hall c h
        · omega

/-- Two canonical memories that read the same everywhere are the same list. -/
theorem eq_of_byte_eq {m m' : Memory} (hm : Memory.wf m = true) (hm' : Memory.wf m' = true)
    (h : ∀ a, Memory.byte m a = Memory.byte m' a) : m = m' := by
  induction m generalizing m' with
  | nil =>
    cases m' with
    | nil => rfl
    | cons c m' =>
      obtain ⟨k, v⟩ := c
      have hv := (wf_cons.mp hm').1
      have := h k
      simp [Memory.byte] at this
      exact absurd this.symm hv
  | cons c m ih =>
    obtain ⟨k, v⟩ := c
    obtain ⟨hv, hall, hwf⟩ := wf_cons.mp hm
    cases m' with
    | nil =>
      have := h k
      simp [Memory.byte] at this
      exact absurd this hv
    | cons c' m' =>
      obtain ⟨k', v'⟩ := c'
      obtain ⟨hv', hall', hwf'⟩ := wf_cons.mp hm'
      have hk : k = k' := by
        rcases Nat.lt_trichotomy k k' with hlt | heq | hgt
        · have h1 := h k
          have h2 := byte_of_not_listed (m := (k', v') :: m') (a := k) (by
            intro c hc
            rcases List.mem_cons.mp hc with e | e
            · rw [e]; simp; omega
            · have := hall' c e; omega)
          rw [h2] at h1
          simp [Memory.byte] at h1
          exact absurd h1 hv
        · exact heq
        · have h1 := h k'
          have h2 := byte_of_not_listed (m := (k, v) :: m) (a := k') (by
            intro c hc
            rcases List.mem_cons.mp hc with e | e
            · rw [e]; simp; omega
            · have := hall c e; omega)
          rw [h2] at h1
          simp [Memory.byte] at h1
          exact absurd h1.symm hv'
      subst hk
      have hvv : v = v' := by
        have := h k
        simpa [Memory.byte] using this
      subst hvv
      rw [ih hwf hwf' fun a => ?_]
      by_cases ha : a = k
      · subst ha
        rw [byte_of_not_listed fun c hc => by have := hall c hc; omega,
          byte_of_not_listed fun c hc => by have := hall' c hc; omega]
      · have := h a
        simpa [Memory.byte, ha] using this

/-! One word. -/

/-- A write of one word leaves every byte outside it, in any memory. -/
theorem byte_setWord_ne {i a : Nat} {w : Word} (h : a < 4 * i ∨ 4 * i + 4 ≤ a) :
    Memory.byte (Memory.setWord m i w) a = Memory.byte m a := by
  unfold Memory.setWord
  rw [byte_setByte_ne (by omega), byte_setByte_ne (by omega), byte_setByte_ne (by omega),
    byte_setByte_ne (by omega)]

/-- A write of one word keeps the canonical form. -/
theorem wf_setWord {i : Nat} {w : Word} (hm : Memory.wf m = true) :
    Memory.wf (Memory.setWord m i w) = true :=
  wf_setByte (wf_setByte (wf_setByte (wf_setByte hm)))

/-- A read after a write of one word. -/
theorem word_setWord_same {i : Nat} {w : Word} (hm : Memory.wf m = true) :
    Memory.word (Memory.setWord m i w) i = w := by
  have h0 := wf_setByte (a := 4 * i) (b := wordByte w 0) hm
  have h1 := wf_setByte (a := 4 * i + 1) (b := wordByte w 1) h0
  have h2 := wf_setByte (a := 4 * i + 2) (b := wordByte w 2) h1
  have b0 : Memory.byte (Memory.setWord m i w) (4 * i) = wordByte w 0 := by
    unfold Memory.setWord
    rw [byte_setByte_ne (by omega), byte_setByte_ne (by omega), byte_setByte_ne (by omega),
      byte_setByte_same hm]
  have b1 : Memory.byte (Memory.setWord m i w) (4 * i + 1) = wordByte w 1 := by
    unfold Memory.setWord
    rw [byte_setByte_ne (by omega), byte_setByte_ne (by omega), byte_setByte_same h0]
  have b2 : Memory.byte (Memory.setWord m i w) (4 * i + 2) = wordByte w 2 := by
    unfold Memory.setWord
    rw [byte_setByte_ne (by omega), byte_setByte_same h1]
  have b3 : Memory.byte (Memory.setWord m i w) (4 * i + 3) = wordByte w 3 := byte_setByte_same h2
  unfold Memory.word
  rw [b0, b1, b2, b3, wordOfBytes_wordByte]

/-- Words are equal where their four bytes are. -/
theorem word_congr {m m' : Memory} {i : Nat}
    (h : ∀ a, 4 * i ≤ a → a < 4 * i + 4 → Memory.byte m a = Memory.byte m' a) :
    Memory.word m i = Memory.word m' i := by
  unfold Memory.word
  rw [h (4 * i) (by omega) (by omega), h (4 * i + 1) (by omega) (by omega),
    h (4 * i + 2) (by omega) (by omega), h (4 * i + 3) (by omega) (by omega)]

/-- A write of one word leaves every other word. -/
theorem word_setWord_ne {i j : Nat} {w : Word} (h : j ≠ i) :
    Memory.word (Memory.setWord m i w) j = Memory.word m j :=
  word_congr fun _ h1 h2 => byte_setWord_ne (by omega)

theorem getLsbD_wordOfBytes (b0 b1 b2 b3 : Byte) (k : Nat) :
    (wordOfBytes b0 b1 b2 b3).getLsbD k =
      if k < 8 then b0.getLsbD k
      else if k < 16 then b1.getLsbD (k - 8)
      else if k < 24 then b2.getLsbD (k - 16)
      else b3.getLsbD (k - 24) := by
  show (b3 ++ b2 ++ b1 ++ b0 : BitVec (8 + 8 + 8 + 8)).getLsbD k = _
  have e2 : k - 8 - 8 = k - 16 := by omega
  have e3 : k - 16 - 8 = k - 24 := by omega
  rw [BitVec.getLsbD_append, BitVec.getLsbD_append, BitVec.getLsbD_append, e2, e3]
  by_cases h1 : k < 8
  · simp only [h1, if_true]
  · by_cases h2 : k < 16
    · simp only [h1, h2, show k - 8 < 8 by omega, if_true, if_false]
    · by_cases h3 : k < 24
      · simp only [h1, h2, h3, show ¬ k - 8 < 8 by omega, show k - 16 < 8 by omega, if_true, if_false]
      · simp only [h1, h2, h3, show ¬ k - 8 < 8 by omega, show ¬ k - 16 < 8 by omega, if_false]

/-- The byte `j` of a word read is the memory's byte. -/
theorem wordByte_word {i j : Nat} (hj : j < 4) :
    wordByte (Memory.word m i) j = Memory.byte m (4 * i + j) := by
  unfold Memory.word wordByte
  apply BitVec.eq_of_getLsbD_eq
  intro k hk
  rw [BitVec.getLsbD_extractLsb', getLsbD_wordOfBytes]
  have : j = 0 ∨ j = 1 ∨ j = 2 ∨ j = 3 := by omega
  rcases this with rfl | rfl | rfl | rfl
  · simp [hk]
  · simp [hk, show ¬ 8 + k < 8 by omega, show 8 + k < 16 by omega]
  · simp [hk, show ¬ 16 + k < 8 by omega, show ¬ 16 + k < 16 by omega, show 16 + k < 24 by omega]
  · simp [hk, show ¬ 24 + k < 8 by omega, show ¬ 24 + k < 16 by omega, show ¬ 24 + k < 24 by omega]

/-- Memories with equal words have equal bytes. -/
theorem byte_eq_of_word_eq {m m' : Memory} {i a : Nat} (h : Memory.word m i = Memory.word m' i)
    (h1 : 4 * i ≤ a) (h2 : a < 4 * i + 4) : Memory.byte m a = Memory.byte m' a := by
  have e : a = 4 * i + (a - 4 * i) := by omega
  rw [e, ← wordByte_word (by omega), ← wordByte_word (by omega), h]

/-- The cells after a word is written are old ones, or lie in the word. -/
theorem mem_setWord {i : Nat} {w : Word} {c : Host.Cell} (h : c ∈ Memory.setWord m i w) :
    c ∈ m ∨ (4 * i ≤ c.1 ∧ c.1 < 4 * i + 4) := by
  unfold Memory.setWord at h
  rcases mem_setByte h with h | h
  · rcases mem_setByte h with h | h
    · rcases mem_setByte h with h | h
      · rcases mem_setByte h with h | h
        · exact .inl h
        · exact .inr (by omega)
      · exact .inr (by omega)
    · exact .inr (by omega)
  · exact .inr (by omega)

/-! Many words. -/

theorem wf_setWords {ws : List Word} {i : Nat} (hm : Memory.wf m = true) :
    Memory.wf (Memory.setWords m i ws) = true := by
  induction ws generalizing m i with
  | nil => exact hm
  | cons w ws ih => exact ih (wf_setWord hm)

theorem word_setWords_before {ws : List Word} {i j : Nat} (h : j < i) :
    Memory.word (Memory.setWords m i ws) j = Memory.word m j := by
  induction ws generalizing m i with
  | nil => rfl
  | cons w ws ih => rw [Memory.setWords, ih (by omega), word_setWord_ne (by omega)]

theorem word_setWords_after {ws : List Word} {i j : Nat} (h : i + ws.length ≤ j) :
    Memory.word (Memory.setWords m i ws) j = Memory.word m j := by
  induction ws generalizing m i with
  | nil => rfl
  | cons w ws ih =>
    simp only [List.length_cons] at h
    rw [Memory.setWords, ih (by omega), word_setWord_ne (by omega)]

theorem word_setWords_at {ws : List Word} {i j : Nat} {w : Word} (hm : Memory.wf m = true)
    (h : ws[j]? = some w) : Memory.word (Memory.setWords m i ws) (i + j) = w := by
  induction ws generalizing m i j with
  | nil => simp at h
  | cons u ws ih =>
    cases j with
    | zero =>
      simp only [List.getElem?_cons_zero, Option.some.injEq] at h
      show Memory.word (Memory.setWords (Memory.setWord m i u) (i + 1) ws) i = w
      rw [word_setWords_before (by omega), word_setWord_same hm, h]
    | succ j =>
      simp only [List.getElem?_cons_succ] at h
      rw [Memory.setWords, show i + (j + 1) = i + 1 + j by omega]
      exact ih (wf_setWord hm) h

theorem mem_setWords {ws : List Word} {i : Nat} {c : Host.Cell} (h : c ∈ Memory.setWords m i ws) :
    c ∈ m ∨ (4 * i ≤ c.1 ∧ c.1 < 4 * (i + ws.length)) := by
  induction ws generalizing m i with
  | nil => exact .inl h
  | cons w ws ih =>
    simp only [List.length_cons]
    rcases ih h with h | h
    · rcases mem_setWord h with h | h
      · exact .inl h
      · exact .inr (by omega)
    · exact .inr (by omega)

/-! Clearing a range. -/

theorem byte_clearWords {lo hi a : Nat} :
    Memory.byte (Memory.clearWords m lo hi) a =
      if 4 * lo ≤ a ∧ a < 4 * hi then 0 else Memory.byte m a := by
  unfold Memory.clearWords
  induction m with
  | nil => simp
  | cons c m ih =>
    obtain ⟨k, v⟩ := c
    rw [List.filter_cons]
    by_cases hk : 4 * lo ≤ k ∧ k < 4 * hi
    · have : ¬ (k < 4 * lo ∨ 4 * hi ≤ k) := by omega
      simp only [Bool.or_eq_true, decide_eq_true_eq, this, if_false, ih, Memory.byte]
      split
      · rfl
      · rename_i ha
        rw [if_neg]
        rintro rfl
        exact ha hk
    · have : (k < 4 * lo ∨ 4 * hi ≤ k) := by omega
      simp only [Bool.or_eq_true, decide_eq_true_eq, this, if_true, ih, Memory.byte]
      by_cases ha : a = k
      · subst ha; simp [hk]
      · simp [ha]

theorem wf_clearWords {lo hi : Nat} (hm : Memory.wf m = true) :
    Memory.wf (Memory.clearWords m lo hi) = true := by
  unfold Memory.clearWords
  induction m with
  | nil => rfl
  | cons c m ih =>
    obtain ⟨k, v⟩ := c
    obtain ⟨hv, hall, hwf⟩ := wf_cons.mp hm
    rw [List.filter_cons]
    split
    · exact wf_cons.mpr ⟨hv, fun c hc => hall c (List.mem_of_mem_filter hc), ih hwf⟩
    · exact ih hwf

theorem word_clearWords_inside {lo hi i : Nat} (h1 : lo ≤ i) (h2 : i < hi) :
    Memory.word (Memory.clearWords m lo hi) i = 0 := by
  unfold Memory.word
  rw [byte_clearWords, byte_clearWords, byte_clearWords, byte_clearWords, if_pos (by omega),
    if_pos (by omega), if_pos (by omega), if_pos (by omega)]
  rfl

@[simp] theorem word_nil (i : Nat) : Memory.word [] i = 0 := by
  simp only [Memory.word, byte_nil]
  decide

end Sys2Proof.Machine
end

