-- ==== Sys2Proof/Laws/State.lean ====
section
/-! SUPPORT. What each update of the state leaves and sets: one lemma per field per update. -/

namespace Sys2Proof.Machine

variable (s : State) (r q : Reg) (v w : Word) (k : Nat) (bs : List Byte)

/-! Reading a register looks at the register file only, whatever the other fields are. -/

@[simp] theorem getReg_mk (c m p n st i o) :
    State.getReg ⟨c, m, s.regs, p, n, st, i, o⟩ q = s.getReg q := by cases q <;> rfl

@[simp] theorem getReg_zero (c m p n st i o) :
    State.getReg ⟨c, m, RegFile.zero, p, n, st, i, o⟩ q = 0 := by cases q <;> rfl

@[simp] theorem memRead_mk (g p n st i o) (j : Int) :
    State.memRead ⟨s.cfg, s.mem, g, p, n, st, i, o⟩ j = s.memRead j := rfl

/-! `setReg`. -/

theorem getReg_setReg : (s.setReg r v).getReg q = if q = r then v else s.getReg q := by
  cases r <;> cases q <;> rfl

@[simp] theorem getReg_setReg_same : (s.setReg r v).getReg r = v := by
  cases r <;> rfl

@[simp] theorem setReg_cfg : (s.setReg r v).cfg = s.cfg := by cases r <;> rfl
@[simp] theorem setReg_mem : (s.setReg r v).mem = s.mem := by cases r <;> rfl
@[simp] theorem setReg_pc : (s.setReg r v).pc = s.pc := by cases r <;> rfl
@[simp] theorem setReg_ssize : (s.setReg r v).ssize = s.ssize := by cases r <;> rfl
@[simp] theorem setReg_status : (s.setReg r v).status = s.status := by cases r <;> rfl
@[simp] theorem setReg_input : (s.setReg r v).input = s.input := by cases r <;> rfl
@[simp] theorem setReg_output : (s.setReg r v).output = s.output := by cases r <;> rfl
@[simp] theorem memRead_setReg (j : Int) : (s.setReg r v).memRead j = s.memRead j := by cases r <;> rfl

/-! `mirror`. -/

theorem getReg_mirror : (s.mirror r).getReg q = if q = .RES then s.getReg r else s.getReg q :=
  getReg_setReg ..

@[simp] theorem mirror_cfg : (s.mirror r).cfg = s.cfg := rfl
@[simp] theorem mirror_mem : (s.mirror r).mem = s.mem := rfl
@[simp] theorem mirror_pc : (s.mirror r).pc = s.pc := rfl
@[simp] theorem mirror_ssize : (s.mirror r).ssize = s.ssize := rfl
@[simp] theorem mirror_status : (s.mirror r).status = s.status := rfl
@[simp] theorem mirror_input : (s.mirror r).input = s.input := rfl
@[simp] theorem mirror_output : (s.mirror r).output = s.output := rfl

/-! `skipOperands`. -/

@[simp] theorem getReg_skipOperands : (s.skipOperands k).getReg q = s.getReg q := getReg_mk ..
@[simp] theorem skipOperands_cfg : (s.skipOperands k).cfg = s.cfg := rfl
@[simp] theorem skipOperands_mem : (s.skipOperands k).mem = s.mem := rfl
@[simp] theorem skipOperands_regs : (s.skipOperands k).regs = s.regs := rfl
@[simp] theorem skipOperands_pc : (s.skipOperands k).pc = s.pc + BitVec.ofNat 32 k := rfl
@[simp] theorem skipOperands_ssize : (s.skipOperands k).ssize = s.ssize := rfl
@[simp] theorem skipOperands_status : (s.skipOperands k).status = s.status := rfl
@[simp] theorem skipOperands_input : (s.skipOperands k).input = s.input := rfl
@[simp] theorem skipOperands_output : (s.skipOperands k).output = s.output := rfl
@[simp] theorem memRead_skipOperands (j : Int) : (s.skipOperands k).memRead j = s.memRead j := rfl
@[simp] theorem topIndex_skipOperands : (s.skipOperands k).topIndex = s.topIndex := rfl
@[simp] theorem pushIndex_skipOperands : (s.skipOperands k).pushIndex = s.pushIndex := rfl
@[simp] theorem stackOffset_skipOperands : (s.skipOperands k).stackOffset w = s.stackOffset w := rfl

/-! `emit`. -/

@[simp] theorem getReg_emit : (s.emit bs).getReg q = s.getReg q := getReg_mk ..
@[simp] theorem emit_cfg : (s.emit bs).cfg = s.cfg := rfl
@[simp] theorem emit_mem : (s.emit bs).mem = s.mem := rfl
@[simp] theorem emit_pc : (s.emit bs).pc = s.pc := rfl
@[simp] theorem emit_ssize : (s.emit bs).ssize = s.ssize := rfl
@[simp] theorem emit_status : (s.emit bs).status = s.status := rfl
@[simp] theorem emit_input : (s.emit bs).input = s.input := rfl
@[simp] theorem emit_output : (s.emit bs).output = s.output ++ bs := rfl

/-! `softReset`. -/

@[simp] theorem getReg_softReset : s.softReset.getReg q = 0 := getReg_zero ..
@[simp] theorem softReset_cfg : s.softReset.cfg = s.cfg := rfl
@[simp] theorem softReset_pc : s.softReset.pc = s.pc := rfl
@[simp] theorem softReset_ssize : s.softReset.ssize = 0 := rfl
@[simp] theorem softReset_status : s.softReset.status = .ok := rfl
@[simp] theorem softReset_input : s.softReset.input = s.input := rfl
@[simp] theorem softReset_output : s.softReset.output = s.output := rfl

/-! `feedInput`. -/

@[simp] theorem getReg_feedInput : (s.feedInput bs).getReg q = s.getReg q := by
  exact getReg_mk ..
@[simp] theorem feedInput_cfg : (s.feedInput bs).cfg = s.cfg := rfl
@[simp] theorem feedInput_mem : (s.feedInput bs).mem = s.mem := rfl
@[simp] theorem feedInput_regs : (s.feedInput bs).regs = s.regs := rfl
@[simp] theorem feedInput_pc : (s.feedInput bs).pc = s.pc := rfl
@[simp] theorem feedInput_ssize : (s.feedInput bs).ssize = s.ssize := rfl
@[simp] theorem feedInput_status : (s.feedInput bs).status = s.status := rfl
@[simp] theorem feedInput_output : (s.feedInput bs).output = s.output := rfl

@[simp] theorem feedInput_input : (s.feedInput bs).input = s.input.feed bs := rfl

/-! `endInput`. -/

@[simp] theorem getReg_endInput : s.endInput.getReg q = s.getReg q := by
  exact getReg_mk ..
@[simp] theorem endInput_cfg : s.endInput.cfg = s.cfg := rfl
@[simp] theorem endInput_mem : s.endInput.mem = s.mem := rfl
@[simp] theorem endInput_regs : s.endInput.regs = s.regs := rfl
@[simp] theorem endInput_pc : s.endInput.pc = s.pc := rfl
@[simp] theorem endInput_ssize : s.endInput.ssize = s.ssize := rfl
@[simp] theorem endInput_status : s.endInput.status = s.status := rfl
@[simp] theorem endInput_output : s.endInput.output = s.output := rfl
@[simp] theorem endInput_input : s.endInput.input = s.input.finish := rfl

/-! `drainOutput`. -/

@[simp] theorem getReg_drainOutput : s.drainOutput.getReg q = s.getReg q := by
  exact getReg_mk ..
@[simp] theorem drainOutput_cfg : s.drainOutput.cfg = s.cfg := rfl
@[simp] theorem drainOutput_mem : s.drainOutput.mem = s.mem := rfl
@[simp] theorem drainOutput_regs : s.drainOutput.regs = s.regs := rfl
@[simp] theorem drainOutput_pc : s.drainOutput.pc = s.pc := rfl
@[simp] theorem drainOutput_ssize : s.drainOutput.ssize = s.ssize := rfl
@[simp] theorem drainOutput_status : s.drainOutput.status = s.status := rfl
@[simp] theorem drainOutput_input : s.drainOutput.input = s.input := rfl
@[simp] theorem drainOutput_output : s.drainOutput.output = [] := rfl

end Sys2Proof.Machine
end

