-- ==== Sys2Proof/Laws/Ops.lean ====
section
/-! SUPPORT. One lemma for each shared operation that says once what it can do: operands, memory access, the stack
primitives, ending and raising. -/

namespace Sys2Proof.Machine

/-! ## Operands -/

theorem regOfWord_of_names {w : Word} {q : Reg} (h : Names w q) : regOfWord w = some q := by
  cases q <;> simp only [Names] at h <;> simp [regOfWord, h]

theorem regOfWord_eq_none {w : Word} (h : NamesNone w) : regOfWord w = none := by
  unfold NamesNone at h
  unfold regOfWord
  split <;> first | omega | rfl

/-- A word names a register or none (30_encoding.md R84, R85). -/
theorem names_or_none (w : Word) : (∃ q, Names w q) ∨ NamesNone w := by
  unfold NamesNone
  have : w.toInt = 0 ∨ w.toInt = 1 ∨ w.toInt = 2 ∨ w.toInt = 3 ∨ w.toInt = 4 ∨ w.toInt < 0 ∨ 4 < w.toInt := by
    omega
  rcases this with h | h | h | h | h | h
  · exact .inl ⟨.A, h⟩
  · exact .inl ⟨.B, h⟩
  · exact .inl ⟨.C, h⟩
  · exact .inl ⟨.D, h⟩
  · exact .inl ⟨.RES, h⟩
  · exact .inr h

theorem names_regIndex (q : Reg) : Names (regIndex q) q := by cases q <;> simp only [Names] <;> decide

variable {k : Nat} {w w1 w2 : Word} {q q1 q2 : Reg} {s t : State} {go : Reg → State → Result}
  {go2 : Reg → Reg → State → Result}

theorem withReg_names (h : Names w q) : withReg k w s go = go q (s.skipOperands k) := by
  simp [withReg, regOfWord_of_names h]

theorem withReg_none (h : NamesNone w) :
    withReg k w s go = .next (raisedState .illegalOperand k s) := by
  simp only [withReg, regOfWord_eq_none h]; rfl

/-- What a handler with one register operand does. -/
theorem withReg_cases (k : Nat) (w : Word) (s : State) (go : Reg → State → Result) :
    (∃ q, Names w q ∧ withReg k w s go = go q (s.skipOperands k)) ∨
    (NamesNone w ∧ withReg k w s go = .next (raisedState .illegalOperand k s)) := by
  rcases names_or_none w with ⟨q, h⟩ | h
  · exact .inl ⟨q, h, withReg_names h⟩
  · exact .inr ⟨h, withReg_none h⟩

theorem withRegs_names (h1 : Names w1 q1) (h2 : Names w2 q2) :
    withRegs w1 w2 s go2 = go2 q1 q2 (s.skipOperands 2) := by
  simp [withRegs, regOfWord_of_names h1, regOfWord_of_names h2]

theorem withRegs_none (h : NamesNone w1 ∨ NamesNone w2) :
    withRegs w1 w2 s go2 = .next (raisedState .illegalOperand 2 s) := by
  rcases h with h | h
  · simp only [withRegs, regOfWord_eq_none h]; rfl
  · simp only [withRegs, regOfWord_eq_none h]
    split <;> rfl

/-- What a handler with two register operands does. -/
theorem withRegs_cases (w1 w2 : Word) (s : State) (go2 : Reg → Reg → State → Result) :
    (∃ q1 q2, Names w1 q1 ∧ Names w2 q2 ∧ withRegs w1 w2 s go2 = go2 q1 q2 (s.skipOperands 2)) ∨
    ((NamesNone w1 ∨ NamesNone w2) ∧ withRegs w1 w2 s go2 = .next (raisedState .illegalOperand 2 s)) := by
  rcases names_or_none w1 with ⟨q1, h1⟩ | h1
  · rcases names_or_none w2 with ⟨q2, h2⟩ | h2
    · exact .inl ⟨q1, q2, h1, h2, withRegs_names h1 h2⟩
    · exact .inr ⟨.inr h2, withRegs_none (.inr h2)⟩
  · exact .inr ⟨.inl h1, withRegs_none (.inl h1)⟩

/-! ## Ending an instruction -/

theorem succeed_eq (s : State) : succeed s = .next { s with status := .ok, pc := s.pc + 1 } := rfl

theorem jumpTo_eq (a : Word) (s : State) : jumpTo a s = .next { s with status := .ok, pc := a } := rfl

theorem raise_skipOperands (e : ErrorKind) (k : Nat) (s : State) :
    raise e (s.skipOperands k) = .next (raisedState e k s) := rfl

/-- `pc + k + 1` of a success, as one addition (40_engine.md R105). -/
theorem pc_skip_succ (p : Word) (k : Nat) : p + BitVec.ofNat 32 k + 1 = p + BitVec.ofNat 32 (k + 1) := by
  rw [BitVec.ofNat_add, BitVec.add_assoc]
  rfl

/-! ## Memory access -/

theorem memRead_eq {i : Int} {v : Word} :
    s.memRead i = some v ↔ (0 ≤ i ∧ i < (s.cfg.memSize : Int)) ∧ Memory.word s.mem i.toNat = v := by
  unfold State.memRead
  split <;> simp_all

theorem memRead_isSome {i : Int} (h0 : 0 ≤ i) (h1 : i < (s.cfg.memSize : Int)) :
    s.memRead i = some (Memory.word s.mem i.toNat) := memRead_eq.mpr ⟨⟨h0, h1⟩, rfl⟩

theorem memWrite_eq {i : Int} {v : Word} :
    s.memWrite i v = some t ↔
      (0 ≤ i ∧ i < (s.cfg.memSize : Int)) ∧ t = { s with mem := Memory.setWord s.mem i.toNat v } := by
  unfold State.memWrite
  split <;> simp_all [eq_comm]

/-- A write leaves the bytes of every other word. -/
theorem sameMemBut_setWord {i : Int} {v : Word} (h : 0 ≤ i) :
    SameMemBut i s { s with mem := Memory.setWord s.mem i.toNat v } := by
  intro a ha
  exact byte_setWord_ne (by omega)

/-! ## The stack primitives -/

/-- What `push` can do. -/
theorem push_done {v : Word} {t : State} :
    s.push v = .done t ↔
      s.ssize ≠ s.cfg.stackCap ∧ (0 ≤ s.pushIndex ∧ s.pushIndex < (s.cfg.memSize : Int)) ∧
      t = { s with mem := Memory.setWord s.mem s.pushIndex.toNat v, ssize := s.ssize + 1 } := by
  unfold State.push
  split
  · simp_all
  · rename_i hne
    split
    · rename_i u hu
      obtain ⟨hb, rfl⟩ := memWrite_eq.mp hu
      simp [hne, hb, eq_comm]
    · rename_i hu
      simp only [State.memWrite] at hu
      split at hu <;> simp_all

theorem push_raises {v : Word} {e : ErrorKind} :
    s.push v = .raises e ↔ s.ssize = s.cfg.stackCap ∧ e = .invalidStackOperation := by
  unfold State.push
  split
  · simp_all [eq_comm]
  · split <;> simp_all

/-- What `pop` can do. -/
theorem pop_done {v : Word} {t : State} :
    s.pop = .done (v, t) ↔
      s.ssize ≠ 0 ∧ (0 ≤ s.topIndex ∧ s.topIndex < (s.cfg.memSize : Int)) ∧
      v = Memory.word s.mem s.topIndex.toNat ∧
      t = { s with mem := Memory.setWord s.mem s.topIndex.toNat 0, ssize := s.ssize - 1 } := by
  unfold State.pop
  split
  · simp_all
  · rename_i hne
    split
    · rename_i x u hx hu
      obtain ⟨hb, rfl⟩ := memRead_eq.mp hx
      obtain ⟨_, rfl⟩ := memWrite_eq.mp hu
      simp [hne, hb, eq_comm]
    · rename_i hno
      by_cases hb : 0 ≤ s.topIndex ∧ s.topIndex < (s.cfg.memSize : Int)
      · exact absurd (memWrite_eq.mpr ⟨hb, rfl⟩) (hno _ _ (memRead_isSome hb.1 hb.2))
      · simp [hb]

theorem pop_raises {e : ErrorKind} :
    s.pop = .raises e ↔ s.ssize = 0 ∧ e = .invalidStackOperation := by
  unfold State.pop
  split
  · simp_all [eq_comm]
  · split <;> simp_all

/-- What `slot` can do. -/
theorem slot_done {off i : Int} :
    s.slot off = .done i ↔ 0 ≤ off ∧ off < (s.ssize : Int) ∧ i = s.topIndex + off := by
  unfold State.slot
  split
  · simp only [reduceCtorEq, false_iff]
    omega
  · simp only [Attempt.done.injEq, eq_comm]
    omega

theorem slot_raises {off : Int} {e : ErrorKind} :
    s.slot off = .raises e ↔
      (off < 0 ∨ s.ssize = 0 ∨ (s.ssize : Int) ≤ off) ∧ e = .invalidStackOperation := by
  unfold State.slot
  split <;> simp_all [eq_comm]

theorem slot_never_outside {off : Int} : s.slot off ≠ .outside := by
  unfold State.slot
  split <;> simp

/-- Where `resolve` goes when it answers a next state. -/
theorem resolve_next {α : Type} {r : Attempt α} {go : α → Result} (h : r.resolve s go = .next t) :
    (∃ a, r = .done a ∧ go a = .next t) ∨ (∃ e, r = .raises e ∧ t = { s with status := e.status }) := by
  cases r with
  | done a => exact .inl ⟨a, rfl, h⟩
  | raises e =>
    simp only [Attempt.resolve, raise, Host.Outcome.next.injEq] at h
    exact .inr ⟨e, rfl, h.symm⟩
  | outside => cases h

/-! ## The invariant's arithmetic -/

theorem Config.valid_iff {c : Config} : c.valid = true ↔ c.stackCap ≤ c.memSize ∧ c.memSize ≤ 2147483644 := by
  simp [Config.valid]

theorem pushIndex_eq (s : State) : s.pushIndex = (s.cfg.memSize : Int) - 1 - s.ssize := rfl

theorem topIndex_eq (s : State) : s.topIndex = (s.cfg.memSize : Int) - s.ssize := by
  unfold State.topIndex stackBottom
  omega

end Sys2Proof.Machine
end

