-- ==== Sys2Proof/Laws/Commands.lean ====
section
/-! SUPPORT. The host's commands: what is in progress, when a STEP waits, and what one round of RUN can do. -/

namespace Sys2Proof.Machine

variable {s t : State} {c d : Call}

/-! ## Sessions -/

@[simp] theorem idle_machine : s.idle.machine = s := rfl
@[simp] theorem idle_pending : s.idle.pending = none := rfl
@[simp] theorem busy_machine : (s.busy c).machine = s := rfl
@[simp] theorem busy_pending : (s.busy c).pending = some c := rfl
@[simp] theorem idle_inj : s.idle = t.idle ↔ s = t := ⟨fun h => congrArg Session.machine h, fun h => h ▸ rfl⟩

@[simp] theorem busy_inj : s.busy c = t.busy d ↔ s = t ∧ c = d := by
  simp [State.busy]

@[simp] theorem idle_ne_busy : s.idle ≠ t.busy c := by
  simp [State.idle, State.busy]

/-- A session is one with nothing in progress, or with one command. -/
theorem session_cases (σ : Session) : (∃ s, σ = State.idle s) ∨ ∃ s c, σ = State.busy s c := by
  obtain ⟨m, _ | c⟩ := σ
  · exact .inl ⟨m, rfl⟩
  · exact .inr ⟨m, c, rfl⟩

@[simp] theorem command_idle (k : Command) : command k s.idle = issue k s := rfl
@[simp] theorem command_busy (k : Command) : command k (s.busy c) = (.noMove, s.busy c) := rfl
@[simp] theorem resume_idle : resume s.idle = (.nothingPending, s.idle) := rfl
@[simp] theorem resume_step : resume (s.busy .step) = stepCall s := rfl
@[simp] theorem resume_run (n : Nat) (k : Int) : resume (s.busy (.run n k)) = runLoop n k s := rfl

/-! ## When a STEP waits -/

/-- An instruction that waits leaves the state as it is (40_engine.md R108; log 6). -/
theorem exec_of_waits {i : Instr} (h : waitsForInput i s = true) : exec i s = .next s := by
  cases i <;> simp only [waitsForInput, Bool.false_eq_true, Bool.and_eq_true, decide_eq_true_eq,
    Option.isSome_iff_exists] at h
  · obtain ⟨⟨q, hq⟩, hw⟩ := h
    simp [exec, execInp, withReg, hq, hw]
  · obtain ⟨⟨q, hq⟩, hw⟩ := h
    simp [exec, execGet, withReg, hq, hw]

/-- A STEP that takes a next state and has no result is blocked in IN or GET, and has changed nothing. -/
theorem blocked_of_stepResult (h : step s = .next t) (hr : stepResult s = none) :
    t = s ∧ s.status = .ok ∧ ∃ i, fetch s = .instr i ∧ waitsForInput i s = true := by
  by_cases hs : s.status = .ok
  · unfold stepResult at hr
    unfold step at h
    rw [if_pos hs] at h hr
    split at hr
    · cases hr
    · rename_i i hi
      rw [hi] at h
      simp only at h
      split at hr
      · rename_i hw
        rw [exec_of_waits hw] at h
        exact ⟨(Host.Outcome.next.inj h).symm, hs, i, hi, hw⟩
      · rw [h] at hr
        simp only at hr
        split at hr <;> cases hr
  · simp [stepResult, hs] at hr

/-- The other direction. -/
theorem stepResult_of_blocked {i : Instr} (hs : s.status = .ok) (hi : fetch s = .instr i)
    (hw : waitsForInput i s = true) : step s = .next s ∧ stepResult s = none := by
  simp [step, stepResult, hs, hi, hw, exec_of_waits hw]

/-! ## STEP and RUN -/

/-- What the STEP command can do. -/
theorem stepCall_cases (s : State) :
    (step s = .next s ∧ stepResult s = none ∧ stepCall s = (.waiting, s.busy .step)) ∨
    (∃ t r, step s = .next t ∧ stepResult s = some r ∧ stepCall s = (.stepped r, t.idle)) ∨
    ((∀ t, step s ≠ .next t) ∧ stepCall s = (.stopped, s.idle)) := by
  unfold stepCall
  cases hs : step s with
  | next t =>
    cases hr : stepResult s with
    | none =>
      obtain ⟨rfl, _⟩ := blocked_of_stepResult hs hr
      exact .inl ⟨rfl, rfl, rfl⟩
    | some r => exact .inr (.inl ⟨t, r, rfl, rfl, rfl⟩)
  | fault f => exact .inr (.inr ⟨by simp, rfl⟩)
  | refused r => exact .inr (.inr ⟨by simp, rfl⟩)

/-- What one round of RUN can do. -/
theorem runLoop_succ_cases (n : Nat) (k : Int) (s : State) :
    (step s = .next s ∧ stepResult s = none ∧
      runLoop (n + 1) k s = (.waiting, s.busy (.run (n + 1) k))) ∨
    (∃ t, step s = .next t ∧ stepResult s = some .fail ∧ runLoop (n + 1) k s = (.count (-(k + 1)), t.idle)) ∨
    (∃ t, step s = .next t ∧ stepResult s = some .success ∧ t.status = .halted ∧
      runLoop (n + 1) k s = (.count (k + 1), t.idle)) ∨
    (∃ t, step s = .next t ∧ stepResult s = some .success ∧ t.status ≠ .halted ∧
      runLoop (n + 1) k s = runLoop n (k + 1) t) ∨
    ((∀ t, step s ≠ .next t) ∧ runLoop (n + 1) k s = (.stopped, s.idle)) := by
  cases hs : step s with
  | next t =>
    cases hr : stepResult s with
    | none =>
      obtain ⟨rfl, _⟩ := blocked_of_stepResult hs hr
      exact .inl ⟨rfl, rfl, by simp [runLoop, hs, hr]⟩
    | some r =>
      cases r with
      | fail => exact .inr (.inl ⟨t, rfl, rfl, by simp [runLoop, hs, hr]⟩)
      | success =>
        by_cases hh : t.status = .halted
        · exact .inr (.inr (.inl ⟨t, rfl, rfl, hh, by simp [runLoop, hs, hr, hh]⟩))
        · exact .inr (.inr (.inr (.inl ⟨t, rfl, rfl, hh, by simp [runLoop, hs, hr, hh]⟩)))
  | fault f => exact .inr (.inr (.inr (.inr ⟨by simp, by simp [runLoop, hs]⟩)))
  | refused r => exact .inr (.inr (.inr (.inr ⟨by simp, by simp [runLoop, hs]⟩)))

end Sys2Proof.Machine
end

