-- ==== Sys2Proof/Laws/Devices.lean ====
section
/-! SUPPORT. What the devices hold reaches an instruction only through what they answer: an instruction that does not wait
does the same when more input follows, and whatever was written before. -/

namespace Sys2Proof.Machine

/-! ## Answers that later input leaves -/

/-- A change of the input device that leaves every answer it has: more bytes follow, or the end of the stream is known
(46_io.md R205). -/
structure LaterInput (f : InDev → InDev) : Prop where
  int : ∀ {d d' : InDev} {v : Word}, d.readInt = .int v d' → (f d).readInt = .int v (f d')
  fail : ∀ {d d' : InDev}, d.readInt = .fail d' → (f d).readInt = .fail (f d')
  byte : ∀ {d d' : InDev} {b : Byte}, d.readByte = .byte b d' → (f d).readByte = .byte b (f d')
  eof : ∀ {d : InDev}, d.readByte = .eof → (f d).readByte = .eof

theorem laterInput_id : LaterInput id := ⟨fun h => h, fun h => h, fun h => h, fun h => h⟩

/-- Behind a list that `dropWhile` does not use up, more elements change nothing. -/
theorem dropWhile_append_of_ne_nil {α : Type} {p : α → Bool} {l l' : List α} (h : l.dropWhile p ≠ []) :
    (l ++ l').dropWhile p = l.dropWhile p ++ l' ∧ (l ++ l').takeWhile p = l.takeWhile p := by
  induction l with
  | nil => exact absurd rfl h
  | cons a l ih =>
    simp only [List.cons_append, List.dropWhile_cons, List.takeWhile_cons] at h ⊢
    split at h
    · rename_i hp
      obtain ⟨h1, h2⟩ := ih h
      simp [hp, h1, h2]
    · rename_i hp
      simp [hp]

theorem takeSign_append {l l' : List Byte} (h : l ≠ []) :
    takeSign (l ++ l') = ((takeSign l).1, (takeSign l).2 ++ l') := by
  cases l with
  | nil => exact absurd rfl h
  | cons b bs =>
    simp only [takeSign, List.cons_append]
    split
    · rfl
    · split <;> rfl

/-- The reader on bytes it has an answer for, with more behind them. -/
theorem readInt_append {bs more : List Byte} {ended : Bool} (hrest : (takeSign (bs.dropWhile isSpace)).2.dropWhile isDigit ≠ []) :
    InDev.readInt { bytes := bs ++ more, ended := ended } =
      match InDev.readInt { bytes := bs, ended := ended } with
      | .int v d => .int v { d with bytes := d.bytes ++ more }
      | .fail d => .fail { d with bytes := d.bytes ++ more }
      | .wait => .wait := by
  have htok : bs.dropWhile isSpace ≠ [] := fun e => hrest (by rw [e]; rfl)
  obtain ⟨h1, h2⟩ := dropWhile_append_of_ne_nil (l' := more) hrest
  have h3 := (dropWhile_append_of_ne_nil (l' := more) htok).1
  unfold InDev.readInt
  simp only [h3, takeSign_append htok, h1, h2, List.append_eq_nil_iff, hrest, false_and, if_false]
  by_cases hd : (takeSign (bs.dropWhile isSpace)).2.takeWhile isDigit = []
  · simp only [hd, if_true]
  · simp only [hd, if_false]
    generalize (if (takeSign (bs.dropWhile isSpace)).1 = true then _ else _ : Int) = v
    by_cases hv : v < intMin ∨ intMax < v
    · simp only [hv, if_true]
    · simp only [hv, if_false]

/-- An answer, before the end of the stream, needs a byte behind the token. -/
theorem rest_of_readInt {d : InDev} (he : d.ended = false) (h : d.readInt ≠ .wait) :
    (takeSign (d.bytes.dropWhile isSpace)).2.dropWhile isDigit ≠ [] := by
  intro e
  exact h (by simp [InDev.readInt, e, he])

/-- Whether the stream ends later does not matter to an answer that is there. -/
theorem readInt_ended {bs : List Byte} (hrest : (takeSign (bs.dropWhile isSpace)).2.dropWhile isDigit ≠ []) :
    InDev.readInt { bytes := bs, ended := true } =
      match InDev.readInt { bytes := bs, ended := false } with
      | .int v d => .int v { d with ended := true }
      | .fail d => .fail { d with ended := true }
      | .wait => .wait := by
  unfold InDev.readInt
  simp only [hrest, false_and, if_false]
  by_cases hd : (takeSign (bs.dropWhile isSpace)).2.takeWhile isDigit = []
  · simp only [hd, if_true]
  · simp only [hd, if_false]
    generalize (if (takeSign (bs.dropWhile isSpace)).1 = true then _ else _ : Int) = v
    by_cases hv : v < intMin ∨ intMax < v
    · simp only [hv, if_true]
    · simp only [hv, if_false]

/-- The end of the stream is as before after an answer. -/
theorem ended_of_readInt {d : InDev} :
    (∀ v e, d.readInt = .int v e → e.ended = d.ended) ∧ (∀ e, d.readInt = .fail e → e.ended = d.ended) := by
  unfold InDev.readInt
  simp only
  generalize (if (takeSign (d.bytes.dropWhile isSpace)).1 = true then _ else _ : Int) = v
  constructor
  · intro w e h
    split at h
    · cases h
    · split at h
      · cases h
      · split at h <;> cases h
        rfl
  · intro e h
    split at h
    · cases h
    · split at h
      · cases h
        rfl
      · split at h <;> cases h
        rfl

/-- An answer there is has not been changed by bytes that arrive after it. -/
theorem laterInput_feed (more : List Byte) : LaterInput (InDev.feed more) := by
  have key : ∀ d : InDev, d.readInt ≠ .wait → (d.feed more).readInt =
      match d.readInt with
      | .int v e => .int v (e.feed more)
      | .fail e => .fail (e.feed more)
      | .wait => .wait := by
    intro d hw
    obtain ⟨bs, ended⟩ := d
    cases ended
    · have hr := rest_of_readInt rfl hw
      simp only [InDev.feed, Bool.false_eq_true, if_false]
      rw [readInt_append hr]
      have he := ended_of_readInt (d := { bytes := bs, ended := false })
      cases hd : InDev.readInt { bytes := bs, ended := false } with
      | int v e => simp [(he.1 _ _ hd)]
      | fail e => simp [(he.2 _ hd)]
      | wait => rfl
    · have he := ended_of_readInt (d := { bytes := bs, ended := true })
      simp only [InDev.feed, if_true]
      cases hd : InDev.readInt { bytes := bs, ended := true } with
      | int v e => simp [(he.1 _ _ hd)]
      | fail e => simp [(he.2 _ hd)]
      | wait => rfl
  refine ⟨fun {d d' v} h => ?_, fun {d d'} h => ?_, fun {d d' b} h => ?_, fun {d} h => ?_⟩
  · rw [key d (by simp [h]), h]
  · rw [key d (by simp [h]), h]
  · obtain ⟨bs, ended⟩ := d
    cases bs with
    | nil => cases ended <;> simp [InDev.readByte] at h
    | cons a bs =>
      simp only [InDev.readByte, ByteAnswer.byte.injEq] at h
      obtain ⟨rfl, rfl⟩ := h
      cases ended <;> simp [InDev.feed, InDev.readByte]
  · obtain ⟨bs, ended⟩ := d
    cases bs <;> cases ended <;> simp [InDev.feed, InDev.readByte] at h ⊢

/-- Nor by the end of the stream. -/
theorem laterInput_finish : LaterInput InDev.finish := by
  have key : ∀ d : InDev, d.readInt ≠ .wait → d.finish.readInt =
      match d.readInt with
      | .int v e => .int v e.finish
      | .fail e => .fail e.finish
      | .wait => .wait := by
    intro d hw
    obtain ⟨bs, ended⟩ := d
    cases ended
    · exact readInt_ended (rest_of_readInt rfl hw)
    · have he := ended_of_readInt (d := { bytes := bs, ended := true })
      simp only [InDev.finish]
      cases hd : InDev.readInt { bytes := bs, ended := true } with
      | int v e =>
        obtain ⟨es, _⟩ := e
        obtain rfl := he.1 _ _ hd
        rfl
      | fail e =>
        obtain ⟨es, _⟩ := e
        obtain rfl := he.2 _ hd
        rfl
      | wait => rfl
  refine ⟨fun {d d' v} h => ?_, fun {d d'} h => ?_, fun {d d' b} h => ?_, fun {d} h => ?_⟩
  · rw [key d (by simp [h]), h]
  · rw [key d (by simp [h]), h]
  · obtain ⟨bs, ended⟩ := d
    cases bs with
    | nil => cases ended <;> simp [InDev.readByte] at h
    | cons a bs =>
      simp only [InDev.readByte, ByteAnswer.byte.injEq] at h
      obtain ⟨rfl, rfl⟩ := h
      rfl
  · obtain ⟨bs, ended⟩ := d
    cases bs <;> cases ended <;> simp [InDev.finish, InDev.readByte] at h ⊢

/-! ## An instruction on other devices -/

/-- The same machine on changed devices. -/
def State.mapDevices (f : InDev → InDev) (g : List Byte → List Byte) (s : State) : State :=
  { s with input := f s.input, output := g s.output }

/-- The same of what an instruction answers. -/
def mapResult (f : InDev → InDev) (g : List Byte → List Byte) : Result → Result
  | .next t => .next (t.mapDevices f g)
  | .fault e => .fault e
  | .refused e => .refused e

variable {f : InDev → InDev} {g : List Byte → List Byte} {s a : State}

@[simp] theorem getReg_mapDevices (q : Reg) : (s.mapDevices f g).getReg q = s.getReg q := getReg_mk ..
@[simp] theorem setReg_mapDevices (q : Reg) (v : Word) :
    (s.mapDevices f g).setReg q v = (s.setReg q v).mapDevices f g := by cases q <;> rfl
@[simp] theorem mapDevices_status : (s.mapDevices f g).status = s.status := rfl
@[simp] theorem mapDevices_input : (s.mapDevices f g).input = f s.input := rfl
@[simp] theorem fetch_mapDevices : fetch (s.mapDevices f g) = fetch s := rfl

theorem memWrite_mapDevices (i : Int) (v : Word) :
    (s.mapDevices f g).memWrite i v = (s.memWrite i v).map (State.mapDevices f g) := by
  unfold State.memWrite
  by_cases h : 0 ≤ i ∧ i < (s.cfg.memSize : Int)
  · rw [if_pos h, if_pos (show 0 ≤ i ∧ i < ((s.mapDevices f g).cfg.memSize : Int) from h)]
    rfl
  · rw [if_neg h, if_neg (show ¬ (0 ≤ i ∧ i < ((s.mapDevices f g).cfg.memSize : Int)) from h)]
    rfl

theorem withReg_mapDevices {k : Nat} {w : Word} {go go' : Reg → State → Result}
    (h : ∀ q, Names w q →
      go' q ((s.skipOperands k).mapDevices f g) = mapResult f g (go q (s.skipOperands k))) :
    withReg k w (s.mapDevices f g) go' = mapResult f g (withReg k w s go) := by
  rcases names_or_none w with ⟨q, hq⟩ | hq
  · rw [withReg_names hq, withReg_names hq]
    exact h q hq
  · rw [withReg_none hq, withReg_none hq]
    rfl

theorem withRegs_mapDevices {w1 w2 : Word} {go : Reg → Reg → State → Result}
    (h : ∀ q1 q2, go q1 q2 ((s.skipOperands 2).mapDevices f g) = mapResult f g (go q1 q2 (s.skipOperands 2))) :
    withRegs w1 w2 (s.mapDevices f g) go = mapResult f g (withRegs w1 w2 s go) := by
  rcases withRegs_cases w1 w2 s go with ⟨q1, q2, h1, h2, e⟩ | ⟨hn, e⟩
  · rw [e, withRegs_names h1 h2]
    exact h q1 q2
  · rw [e, withRegs_none hn]
    rfl

theorem push_mapDevices {v : Word} {go : State → Result}
    (hgo : ∀ t, go (t.mapDevices f g) = mapResult f g (go t)) :
    ((s.mapDevices f g).push v).resolve (a.mapDevices f g) go = mapResult f g ((s.push v).resolve a go) := by
  unfold State.push
  by_cases h : s.ssize = s.cfg.stackCap
  · rw [if_pos h, if_pos (show (s.mapDevices f g).ssize = (s.mapDevices f g).cfg.stackCap from h)]
    rfl
  · rw [if_neg h, if_neg (show ¬ (s.mapDevices f g).ssize = (s.mapDevices f g).cfg.stackCap from h),
      memWrite_mapDevices, show (s.mapDevices f g).pushIndex = s.pushIndex from rfl]
    cases s.memWrite s.pushIndex v with
    | none => rfl
    | some t => exact hgo { t with ssize := s.ssize + 1 }

theorem pop_mapDevices {go : Word × State → Result}
    (hgo : ∀ v t, go (v, t.mapDevices f g) = mapResult f g (go (v, t))) :
    (s.mapDevices f g).pop.resolve (a.mapDevices f g) go = mapResult f g (s.pop.resolve a go) := by
  unfold State.pop
  by_cases h : s.ssize = 0
  · rw [if_pos h, if_pos (show (s.mapDevices f g).ssize = 0 from h)]
    rfl
  · rw [if_neg h, if_neg (show ¬ (s.mapDevices f g).ssize = 0 from h), memWrite_mapDevices,
      show (s.mapDevices f g).topIndex = s.topIndex from rfl,
      show (s.mapDevices f g).memRead s.topIndex = s.memRead s.topIndex from rfl]
    cases s.memRead s.topIndex with
    | none => rfl
    | some v =>
      cases s.memWrite s.topIndex 0 with
      | none => rfl
      | some t => exact hgo v { t with ssize := s.ssize - 1 }

theorem branch_mapDevices {b : Bool} {w : Word} :
    branch b w (s.mapDevices f g) = mapResult f g (branch b w s) := by cases b <;> rfl

/-- An instruction that does not wait does the same on devices with later input and another past output. -/
theorem exec_mapDevices {i : Instr} (hf : LaterInput f) (hg : ∀ xs ys, g (xs ++ ys) = g xs ++ ys)
    (hw : waitsForInput i s = false) : exec i (s.mapDevices f g) = mapResult f g (exec i s) := by
  cases i <;> simp only [exec]
  case nop | halt => rfl
  case add | sub | mul =>
    exact withReg_mapDevices fun q _ => by simp only [accumulate, State.mirror, getReg_mapDevices, setReg_mapDevices]; rfl
  case div =>
    refine withReg_mapDevices fun q _ => ?_
    simp only [getReg_mapDevices]
    split
    · rfl
    · simp only [accumulate, State.mirror, getReg_mapDevices, setReg_mapDevices]
      rfl
  case inc | dec =>
    exact withReg_mapDevices fun q _ => by simp only [adjust, State.mirror, getReg_mapDevices, setReg_mapDevices]; rfl
  case loop => simp only [execLoop, State.counterNotZero, getReg_mapDevices, branch_mapDevices]
  case jmp => exact branch_mapDevices
  case jz => simp only [execJz, State.resultIsZero, getReg_mapDevices, branch_mapDevices]
  case jnz => simp only [execJnz, State.resultNotZero, getReg_mapDevices, branch_mapDevices]
  case jgt => simp only [execJgt, State.resultPositive, getReg_mapDevices, branch_mapDevices]
  case movr => exact withReg_mapDevices fun q _ => by simp only [setReg_mapDevices]; rfl
  case swap => exact withRegs_mapDevices fun q q' => by simp only [getReg_mapDevices, setReg_mapDevices]; rfl
  case cmp => exact withRegs_mapDevices fun q q' => by simp only [getReg_mapDevices, setReg_mapDevices]; rfl
  case push =>
    exact withReg_mapDevices fun q _ => by
      simp only [getReg_mapDevices]
      exact push_mapDevices fun t => rfl
  case pop => exact withReg_mapDevices fun q _ => pop_mapDevices fun v t => by simp only [setReg_mapDevices]; rfl
  case call => exact push_mapDevices (s := s.skipOperands 2) (a := s.skipOperands 2) fun t => rfl
  case ret => exact pop_mapDevices fun v t => rfl
  case load n =>
    simp only [execLoad]
    refine withReg_mapDevices fun q _ => ?_
    show (((s.skipOperands 2).slot ((s.skipOperands 2).stackOffset n)).resolve _ _ : Result) = _
    cases (s.skipOperands 2).slot ((s.skipOperands 2).stackOffset n) with
    | done i =>
      show (match (s.skipOperands 2).memRead i with | some v => _ | none => _ : Result) = _
      simp only [Attempt.resolve, setReg_mapDevices]
      cases (s.skipOperands 2).memRead i <;> rfl
    | raises k => rfl
    | outside => rfl
  case store n =>
    simp only [execStore]
    refine withReg_mapDevices fun q _ => ?_
    show (((s.skipOperands 2).slot ((s.skipOperands 2).stackOffset n)).resolve _ _ : Result) = _
    cases (s.skipOperands 2).slot ((s.skipOperands 2).stackOffset n) with
    | done i =>
      simp only [Attempt.resolve, getReg_mapDevices, memWrite_mapDevices]
      cases (s.skipOperands 2).memWrite i ((s.skipOperands 2).getReg q) <;> rfl
    | raises k => rfl
    | outside => rfl
  case inp =>
    simp only [execInp]
    refine withReg_mapDevices fun q hq => ?_
    simp only [waitsForInput, regOfWord_of_names hq, Option.isSome_some, Bool.true_and, decide_eq_false_iff_not] at hw
    simp only [mapDevices_input, skipOperands_input]
    cases hr : s.input.readInt with
    | int v d =>
      rw [hf.int hr]
      cases q <;> rfl
    | fail d =>
      rw [hf.fail hr]
      rfl
    | wait => exact absurd hr hw
  case get =>
    simp only [execGet]
    refine withReg_mapDevices fun q hq => ?_
    simp only [waitsForInput, regOfWord_of_names hq, Option.isSome_some, Bool.true_and, decide_eq_false_iff_not] at hw
    simp only [mapDevices_input, skipOperands_input]
    cases hr : s.input.readByte with
    | byte b d =>
      rw [hf.byte hr]
      cases q <;> rfl
    | eof =>
      rw [hf.eof hr]
      cases q <;> rfl
    | wait => exact absurd hr hw
  case out =>
    simp only [execOut]
    refine withReg_mapDevices fun q _ => ?_
    simp only [getReg_mapDevices]
    simp only [State.emit, succeed, State.mapDevices, mapResult, hg]
  case put =>
    simp only [execPut]
    refine withReg_mapDevices fun q _ => ?_
    simp only [getReg_mapDevices]
    split
    · rfl
    · simp only [State.emit, succeed, State.mapDevices, mapResult, hg]

/-- Later input does not make an instruction wait that has its answer. -/
theorem waits_mapDevices {i : Instr} (hf : LaterInput f) (hw : waitsForInput i s = false) :
    waitsForInput i (s.mapDevices f g) = false := by
  cases i <;> try rfl
  case inp r =>
    simp only [waitsForInput, mapDevices_input, Bool.and_eq_false_iff, decide_eq_false_iff_not] at hw ⊢
    refine hw.imp id fun h => ?_
    cases hr : s.input.readInt with
    | int v d => simp [hf.int hr]
    | fail d => simp [hf.fail hr]
    | wait => exact absurd hr h
  case get r =>
    simp only [waitsForInput, mapDevices_input, Bool.and_eq_false_iff, decide_eq_false_iff_not] at hw ⊢
    refine hw.imp id fun h => ?_
    cases hr : s.input.readByte with
    | byte b d => simp [hf.byte hr]
    | eof => simp [hf.eof hr]
    | wait => exact absurd hr h

/-- The same of a STEP that has its result. -/
theorem step_mapDevices {r : StepResult} (hf : LaterInput f) (hg : ∀ xs ys, g (xs ++ ys) = g xs ++ ys)
    (h : stepResult s = some r) :
    step (s.mapDevices f g) = mapResult f g (step s) ∧ stepResult (s.mapDevices f g) = some r := by
  unfold stepResult at h ⊢
  unfold step
  simp only [mapDevices_status, fetch_mapDevices]
  by_cases hs : s.status = .ok
  · simp only [hs, if_true] at h ⊢
    cases hi : fetch s with
    | raises k =>
      rw [hi] at h
      exact ⟨rfl, h⟩
    | instr i =>
      rw [hi] at h
      simp only at h ⊢
      cases hw : waitsForInput i s with
      | true => simp [hw] at h
      | false =>
        rw [waits_mapDevices hf hw, exec_mapDevices hf hg hw]
        simp only [hw, Bool.false_eq_true, if_false] at h ⊢
        refine ⟨trivial, ?_⟩
        cases he : exec i s <;> rw [he] at h <;> exact h
  · simp only [hs, if_false] at h ⊢
    exact ⟨rfl, h⟩

end Sys2Proof.Machine
end

