-- ==== Sys2Proof/Laws/Effects.lean ====
section
/-! SUPPORT. One lemma for each shared shape of an instruction, for the word arithmetic, and for the fetch. -/

namespace Sys2Proof.Machine

variable {s : State}

/-! ## Arithmetic -/

/-- Reducing an exact result leaves the one value it may leave (00_scope.md R14). -/
theorem wrapsTo_wrap32 (e : Int) : WrapsTo e (wrap32 e) := by
  refine ⟨(e - (BitVec.ofInt 32 e).toInt) / 2 ^ 32, ?_⟩
  unfold wrap32
  rw [BitVec.toInt_ofInt]
  have h : ((2 : Int) ^ 32) ∣ e - e.bmod (2 ^ 32) := by
    have := Int.bmod_emod (x := e) (m := 2 ^ 32)
    apply Int.ModEq.dvd
    unfold Int.ModEq
    push_cast at *
    exact this
  push_cast at *
  omega

/-- A result inside the signed range is not changed. -/
theorem toInt_wrap32 {e : Int} (h0 : intMin ≤ e) (h1 : e ≤ intMax) : (wrap32 e).toInt = e := by
  unfold wrap32
  unfold intMin at h0
  unfold intMax at h1
  rw [BitVec.toInt_ofInt]
  apply Int.bmod_eq_of_le <;> omega

theorem toInt_range (w : Word) : intMin ≤ w.toInt ∧ w.toInt ≤ intMax := by
  have h0 := w.le_toInt
  have h1 := w.toInt_lt
  unfold intMin intMax
  constructor <;> omega

/-! ## Shapes of instructions -/

/-- The `pc` and the status after a success (40_engine.md R105). -/
theorem completed_succeed {u : State} {k : Nat} (hp : u.pc = s.pc + BitVec.ofNat 32 k) :
    Completed k s { u with status := .ok, pc := u.pc + 1 } := by
  refine ⟨?_, rfl⟩
  show u.pc + 1 = _
  rw [hp, pc_skip_succ]

/-- What ADD, SUB, MUL and DIV do with their function. -/
theorem accumulate_spec (s : State) (q : Reg) (f : Word → Word → Word) :
    ∃ t, accumulate f q (s.skipOperands 1) = .next t ∧ t.getReg .A = f (s.getReg .A) (s.getReg q) ∧
      t.getReg .RES = t.getReg .A ∧ OnlyRegs [.A, .RES] s t ∧ Completed 1 s t := by
  refine ⟨_, rfl, ?_, ?_, ?_, completed_succeed (by simp)⟩
  · simp [getReg_mirror]
  · simp [getReg_mirror]
  · constructor
    · intro r hr
      simp only [List.mem_cons, List.not_mem_nil, or_false, not_or] at hr
      simp [getReg_mirror, getReg_setReg, hr]
    · intro a
      simp
    all_goals simp

/-- What INC and DEC do with their function. -/
theorem adjust_spec (s : State) (q : Reg) (f : Word → Word) :
    ∃ t, adjust f q (s.skipOperands 1) = .next t ∧ t.getReg q = f (s.getReg q) ∧
      t.getReg .RES = t.getReg q ∧ OnlyRegs [q, .RES] s t ∧ Completed 1 s t := by
  refine ⟨_, rfl, ?_, ?_, ?_, completed_succeed (by simp)⟩
  · simp [getReg_mirror]
  · simp [getReg_mirror]
  · constructor
    · intro r hr
      simp only [List.mem_cons, List.not_mem_nil, or_false, not_or] at hr
      simp [getReg_mirror, getReg_setReg, hr]
    · intro a
      simp
    all_goals simp

/-- A jump on a condition is one next state. -/
theorem branch_eq (b : Bool) (a : Word) (s : State) :
    branch b a s = .next { s with pc := if b then a else s.pc + 2, status := .ok } := by
  unfold branch
  cases b
  · simp [succeed, State.skipOperands, BitVec.add_assoc]
  · rfl

/-- With a free slot `push` is done. -/
theorem push_eq {v : Word} (h1 : s.ssize < s.cfg.stackCap) (h2 : s.cfg.stackCap ≤ s.cfg.memSize) :
    s.push v = .done { s with mem := Memory.setWord s.mem s.pushIndex.toNat v, ssize := s.ssize + 1 } :=
  push_done.mpr ⟨by omega, by rw [pushIndex_eq]; omega, rfl⟩

/-- With an occupied slot `pop` is done. -/
theorem pop_eq (h1 : 0 < s.ssize) (h2 : s.ssize ≤ s.cfg.memSize) :
    s.pop = .done (Memory.word s.mem s.topIndex.toNat,
      { s with mem := Memory.setWord s.mem s.topIndex.toNat 0, ssize := s.ssize - 1 }) :=
  pop_done.mpr ⟨by omega, by rw [topIndex_eq]; omega, rfl, rfl⟩

/-! ## The fetch -/

theorem pcInRange_of (h0 : 0 ≤ s.pc.toInt) (h1 : s.pc.toInt ≤ endOfStack s.cfg) : pcInRange s.cfg s.pc = true := by
  simp [pcInRange, h0, h1]

/-- The kinds the engine itself raises. -/
theorem fetch_raises {e : ErrorKind} (h : fetch s = .raises e) : e = .invalidAddress ∨ e = .illegalInstruction := by
  unfold fetch at h
  split at h
  · split at h <;> cases h <;> simp
  · cases h
    simp

/-- The words fetched begin with any words that stand in memory there. -/
theorem wordsFrom_prefix (l : List Word) (i : Int) (n : Nat) (hn : l.length ≤ n)
    (h : ∀ (j : Nat) (w : Word), l[j]? = some w → s.memRead (i + j) = some w) :
    ∃ rest, s.wordsFrom n i = l ++ rest := by
  induction l generalizing i n with
  | nil => exact ⟨_, rfl⟩
  | cons a l ih =>
    cases n with
    | zero => simp at hn
    | succ n =>
      have h0 := h 0 a rfl
      simp only [Nat.cast_zero, add_zero] at h0
      obtain ⟨rest, hr⟩ := ih (i + 1) n (by simpa using hn) (fun j w hj => by
        have := h (j + 1) w (by simpa using hj)
        rw [← this]
        congr 1
        push_cast
        omega)
      exact ⟨rest, by simp [State.wordsFrom, h0, hr]⟩

end Sys2Proof.Machine
end

