-- ==== Sys2Proof/Laws/Exec.lean ====
section
/-! SUPPORT. What any instruction can do to memory, the stack counter and the parameters, said once. -/

namespace Sys2Proof.Machine

/-- The four things an instruction that answers a next state can have done to the memory and the stack counter: nothing,
a push, a pop, or a store into an occupied slot (20_memory.md R59). -/
inductive StackEffect (s t : State) : Prop where
  | same (mem : t.mem = s.mem) (ssize : t.ssize = s.ssize)
  | pushed (v : Word) (room : s.ssize ≠ s.cfg.stackCap) (low : 0 ≤ s.pushIndex)
      (high : s.pushIndex < (s.cfg.memSize : Int))
      (mem : t.mem = Memory.setWord s.mem s.pushIndex.toNat v) (ssize : t.ssize = s.ssize + 1)
  | popped (some : s.ssize ≠ 0) (low : 0 ≤ s.topIndex) (high : s.topIndex < (s.cfg.memSize : Int))
      (mem : t.mem = Memory.setWord s.mem s.topIndex.toNat 0) (ssize : t.ssize = s.ssize - 1)
  | stored (off : Int) (v : Word) (low : 0 ≤ off) (high : off < (s.ssize : Int))
      (inLow : 0 ≤ s.topIndex + off) (inHigh : s.topIndex + off < (s.cfg.memSize : Int))
      (mem : t.mem = Memory.setWord s.mem (s.topIndex + off).toNat v) (ssize : t.ssize = s.ssize)

variable {s t : State}

theorem effect_raised {e : ErrorKind} {k : Nat} (h : (.next (raisedState e k s) : Result) = .next t) :
    t.cfg = s.cfg ∧ StackEffect s t := by
  cases h
  exact ⟨rfl, .same rfl rfl⟩

theorem effect_raise {e : ErrorKind} {k : Nat} (h : raise e (s.skipOperands k) = .next t) :
    t.cfg = s.cfg ∧ StackEffect s t := by
  cases h
  exact ⟨rfl, .same rfl rfl⟩

theorem effect_succeed {u : State} (h : succeed u = .next t) (hc : u.cfg = s.cfg) (hm : u.mem = s.mem)
    (hn : u.ssize = s.ssize) : t.cfg = s.cfg ∧ StackEffect s t := by
  cases h
  exact ⟨hc, .same hm hn⟩

theorem effect_withReg {k : Nat} {w : Word} {go : Reg → State → Result} (h : withReg k w s go = .next t)
    (hgo : ∀ q, go q (s.skipOperands k) = .next t → t.cfg = s.cfg ∧ StackEffect s t) :
    t.cfg = s.cfg ∧ StackEffect s t := by
  rcases withReg_cases k w s go with ⟨q, _, e⟩ | ⟨_, e⟩
  · exact hgo q (e ▸ h)
  · exact effect_raised (e ▸ h)

theorem effect_withRegs {w1 w2 : Word} {go : Reg → Reg → State → Result} (h : withRegs w1 w2 s go = .next t)
    (hgo : ∀ q1 q2, go q1 q2 (s.skipOperands 2) = .next t → t.cfg = s.cfg ∧ StackEffect s t) :
    t.cfg = s.cfg ∧ StackEffect s t := by
  rcases withRegs_cases w1 w2 s go with ⟨q1, q2, _, _, e⟩ | ⟨_, e⟩
  · exact hgo q1 q2 (e ▸ h)
  · exact effect_raised (e ▸ h)

theorem effect_push {k : Nat} {v : Word} {go : State → Result}
    (h : ((s.skipOperands k).push v).resolve (s.skipOperands k) go = .next t)
    (hgo : ∀ u, go u = .next t → t.cfg = u.cfg ∧ t.mem = u.mem ∧ t.ssize = u.ssize) :
    t.cfg = s.cfg ∧ StackEffect s t := by
  rcases resolve_next h with ⟨u, hu, hg⟩ | ⟨e, _, rfl⟩
  · obtain ⟨hne, hb, rfl⟩ := push_done.mp hu
    obtain ⟨h1, h2, h3⟩ := hgo _ hg
    exact ⟨h1, .pushed v hne hb.1 hb.2 h2 h3⟩
  · exact ⟨rfl, .same rfl rfl⟩

theorem effect_pop {k : Nat} {go : Word × State → Result}
    (h : (s.skipOperands k).pop.resolve (s.skipOperands k) go = .next t)
    (hgo : ∀ v u, go (v, u) = .next t → t.cfg = u.cfg ∧ t.mem = u.mem ∧ t.ssize = u.ssize) :
    t.cfg = s.cfg ∧ StackEffect s t := by
  rcases resolve_next h with ⟨⟨v, u⟩, hu, hg⟩ | ⟨e, _, rfl⟩
  · obtain ⟨hne, hb, _, rfl⟩ := pop_done.mp hu
    obtain ⟨h1, h2, h3⟩ := hgo _ _ hg
    exact ⟨h1, .popped hne hb.1 hb.2 h2 h3⟩
  · exact ⟨rfl, .same rfl rfl⟩

theorem effect_accumulate {f : Word → Word → Word} {q : Reg} {k : Nat}
    (h : accumulate f q (s.skipOperands k) = .next t) : t.cfg = s.cfg ∧ StackEffect s t :=
  effect_succeed h (by simp) (by simp) (by simp)

theorem effect_adjust {f : Word → Word} {q : Reg} {k : Nat}
    (h : adjust f q (s.skipOperands k) = .next t) : t.cfg = s.cfg ∧ StackEffect s t :=
  effect_succeed h (by simp) (by simp) (by simp)

theorem effect_branch {b : Bool} {a : Word} (h : branch b a s = .next t) : t.cfg = s.cfg ∧ StackEffect s t := by
  unfold branch at h
  split at h <;> (cases h; exact ⟨rfl, .same rfl rfl⟩)

/-- What an instruction that answers a next state has done to parameters, memory and stack counter. -/
theorem exec_effect {i : Instr} (h : exec i s = .next t) : t.cfg = s.cfg ∧ StackEffect s t := by
  cases i with
  | nop =>
    simp only [exec, execNop] at h
    cases h; exact ⟨rfl, .same rfl rfl⟩
  | halt =>
    simp only [exec, execHalt] at h
    cases h; exact ⟨rfl, .same rfl rfl⟩
  | add r =>
    simp only [exec, execAdd] at h
    exact effect_withReg h fun _ h => effect_accumulate h
  | sub r =>
    simp only [exec, execSub] at h
    exact effect_withReg h fun _ h => effect_accumulate h
  | mul r =>
    simp only [exec, execMul] at h
    exact effect_withReg h fun _ h => effect_accumulate h
  | div r =>
    simp only [exec, execDiv] at h
    refine effect_withReg h fun q h => ?_
    split at h
    · exact effect_raise h
    · exact effect_accumulate h
  | inc r =>
    simp only [exec, execInc] at h
    exact effect_withReg h fun _ h => effect_adjust h
  | dec r =>
    simp only [exec, execDec] at h
    exact effect_withReg h fun _ h => effect_adjust h
  | loop a =>
    simp only [exec, execLoop] at h
    exact effect_branch h
  | movr r n =>
    simp only [exec, execMovr] at h
    exact effect_withReg h fun _ h => effect_succeed h (by simp) (by simp) (by simp)
  | load r n =>
    simp only [exec, execLoad] at h
    refine effect_withReg h fun q h => ?_
    rcases resolve_next h with ⟨i, _, hg⟩ | ⟨e, _, rfl⟩
    · split at hg
      · exact effect_succeed hg (by simp) (by simp) (by simp)
      · cases hg
    · exact ⟨rfl, .same rfl rfl⟩
  | store r n =>
    simp only [exec, execStore] at h
    refine effect_withReg h fun q h => ?_
    rcases resolve_next h with ⟨i, hi, hg⟩ | ⟨e, _, rfl⟩
    · split at hg
      · rename_i u hu
        obtain ⟨h0, h1, rfl⟩ := slot_done.mp hi
        obtain ⟨hb, rfl⟩ := memWrite_eq.mp hu
        cases hg
        exact ⟨rfl, .stored _ _ h0 h1 hb.1 hb.2 rfl rfl⟩
      · cases hg
    · exact ⟨rfl, .same rfl rfl⟩
  | inp r =>
    simp only [exec, execInp] at h
    refine effect_withReg h fun q h => ?_
    split at h
    · exact effect_succeed h (by simp) (by simp) (by simp)
    · cases h; exact ⟨rfl, .same rfl rfl⟩
    · cases h; exact ⟨rfl, .same rfl rfl⟩
  | get r =>
    simp only [exec, execGet] at h
    refine effect_withReg h fun q h => ?_
    split at h
    · exact effect_succeed h (by simp) (by simp) (by simp)
    · exact effect_succeed h (by simp) (by simp) (by simp)
    · cases h; exact ⟨rfl, .same rfl rfl⟩
  | out r =>
    simp only [exec, execOut] at h
    exact effect_withReg h fun _ h => effect_succeed h (by simp) (by simp) (by simp)
  | put r =>
    simp only [exec, execPut] at h
    refine effect_withReg h fun q h => ?_
    split at h
    · exact effect_raise h
    · exact effect_succeed h (by simp) (by simp) (by simp)
  | swap r1 r2 =>
    simp only [exec, execSwap] at h
    exact effect_withRegs h fun _ _ h => effect_succeed h (by simp) (by simp) (by simp)
  | push r =>
    simp only [exec, execPush] at h
    refine effect_withReg h fun q h => effect_push h fun u hu => ?_
    cases hu; exact ⟨rfl, rfl, rfl⟩
  | pop r =>
    simp only [exec, execPop] at h
    refine effect_withReg h fun q h => effect_pop h fun v u hu => ?_
    cases hu; simp
  | cmp r1 r2 =>
    simp only [exec, execCmp] at h
    exact effect_withRegs h fun _ _ h => effect_succeed h (by simp) (by simp) (by simp)
  | jmp a =>
    simp only [exec, execJmp] at h
    exact effect_branch h
  | jz a =>
    simp only [exec, execJz] at h
    exact effect_branch h
  | jnz a =>
    simp only [exec, execJnz] at h
    exact effect_branch h
  | jgt a =>
    simp only [exec, execJgt] at h
    exact effect_branch h
  | call a ra =>
    simp only [exec, execCall] at h
    refine effect_push h fun u hu => ?_
    cases hu; exact ⟨rfl, rfl, rfl⟩
  | ret =>
    simp only [exec, execRet] at h
    have h' : (s.skipOperands 0).pop.resolve (s.skipOperands 0) (fun p => jumpTo p.1 p.2) = .next t := by
      have : s.skipOperands 0 = s := by unfold State.skipOperands; simp
      rw [this]; exact h
    refine effect_pop h' fun v u hu => ?_
    cases hu; exact ⟨rfl, rfl, rfl⟩

/-- The same of a step. -/
theorem step_effect (h : step s = .next t) : t.cfg = s.cfg ∧ StackEffect s t := by
  unfold step at h
  split at h
  · split at h
    · exact exec_effect h
    · cases h; exact ⟨rfl, .same rfl rfl⟩
  · cases h; exact ⟨rfl, .same rfl rfl⟩

end Sys2Proof.Machine
end

