-- ==== Sys2Proof/Tests/Slice0.lean ====
section
/-! SUPPORT. The model's own tests: the well-formedness smoke, words written out from the spec's encoding, single steps
from the vectors of 95_test_vectors.md, and a witness for the hypotheses of every statement. -/

namespace Sys2Proof.Tests

open Sys2Proof Sys2Proof.Machine

/-! ## Helpers -/

/-- The state after power-on of a program, in the configuration of the vectors. -/
def boot (ws : List Word) : State := { State.reset with mem := Memory.setWords [] 0 ws }

/-- A small machine: eight words, a stack of three. -/
def small (ws : List Word) : State := { boot ws with cfg := { memSize := 8, stackCap := 3 } }

def State.with (s : State) (a b c d res : Word) : State := { s with regs := ⟨a, b, c, d, res⟩ }

def State.inputs (s : State) (bs : List Byte) : State := { s with input := { bytes := bs, ended := true } }

/-- What the vectors write of a state: the registers, `pc`, `ssize`, the status. -/
def view (s : State) : List Int × Int × Nat × Status :=
  ([s.regs.a.toInt, s.regs.b.toInt, s.regs.c.toInt, s.regs.d.toInt, s.regs.res.toInt], s.pc.toInt, s.ssize, s.status)

/-- One step, seen through `f`. -/
def after {α : Type} (s : State) (f : State → α) : Option α :=
  match step s with
  | .next t => some (f t)
  | .fault _ => none
  | .refused _ => none

/-- Two steps, seen through `f`. -/
def after2 {α : Type} (s : State) (f : State → α) : Option α := (after s fun t => after t f).join

/-- The stack of V55 to V57: 10, 20, 30 from the stack bottom. -/
def stack3 (ws : List Word) : State :=
  { boot ws with mem := Memory.setWords (Memory.setWords [] 0 ws) 1021 [30, 20, 10], ssize := 3 }

/-! ## Well-formedness: an ill-formed term for each check (30_encoding.md R85) -/

theorem test_wf_index_five : legalIndex 5 = false := by decide
theorem test_wf_index_minus_one : legalIndex (-1) = false := by decide
theorem test_wf_index_bounds : legalIndex 0 = true ∧ legalIndex 4 = true := by decide
theorem test_wf_one_operand :
    [Instr.add 5, .sub 5, .mul 5, .div 5, .inc 5, .dec 5, .inp 5, .get 5, .out 5, .put 5, .push 5, .pop 5,
      .movr 5 0, .load 5 0, .store 5 0].all (fun i => i.wellFormed == false) = true := by decide
theorem test_wf_first_of_two : Instr.wellFormed (.swap 5 0) = false ∧ Instr.wellFormed (.cmp (-1) 0) = false := by decide
theorem test_wf_second_of_two : Instr.wellFormed (.swap 0 5) = false ∧ Instr.wellFormed (.cmp 0 (-1)) = false := by decide
theorem test_wf_any_address : Instr.wellFormed (.jmp (-1)) = true ∧ Instr.wellFormed (.call (-1) (-1)) = true := by decide

/-! ## Decoding: words from the opcode map (30_encoding.md R86, R87) and bytes (R91) -/

theorem test_decode_system : decode [0x00000000] = .instr .nop [] ∧ decode [0x00000001] = .instr .halt [] := by decide

theorem test_decode_arithmetic :
    decode [0x00000002, 1] = .instr (.add 1) [] ∧ decode [0x00000003, 1] = .instr (.sub 1) [] ∧
    decode [0x00000004, 1] = .instr (.mul 1) [] ∧ decode [0x00000005, 1] = .instr (.div 1) [] ∧
    decode [0x00000006, 4] = .instr (.inc 4) [] ∧ decode [0x00000007, 2] = .instr (.dec 2) [] ∧
    decode [0x00000013, 1, 2] = .instr (.cmp 1 2) [] := by decide

theorem test_decode_data_move :
    decode [0x00000009, 0, 0xFFFFFFFF] = .instr (.movr 0 0xFFFFFFFF) [] ∧
    decode [0x00000010, 0, 4] = .instr (.swap 0 4) [] := by decide

theorem test_decode_stack :
    decode [0x0000000A, 1, 0] = .instr (.load 1 0) [] ∧
    decode [0x0000000B, 2, 0xFFFFFFFF] = .instr (.store 2 0xFFFFFFFF) [] ∧
    decode [0x00000011, 0] = .instr (.push 0) [] ∧ decode [0x00000012, 1] = .instr (.pop 1) [] := by decide

theorem test_decode_control :
    decode [0x00000008, 6] = .instr (.loop 6) [] ∧ decode [0x00000014, 7] = .instr (.jmp 7) [] ∧
    decode [0x00000015, 7] = .instr (.jz 7) [] ∧ decode [0x00000016, 7] = .instr (.jnz 7) [] ∧
    decode [0x00000017, 9] = .instr (.jgt 9) [] ∧ decode [0x00000018, 7, 6] = .instr (.call 7 6) [] ∧
    decode [0x00000019] = .instr .ret [] := by decide

theorem test_decode_io :
    decode [0x0000000C, 0] = .instr (.inp 0) [] ∧ decode [0x0000000D, 0] = .instr (.get 0) [] ∧
    decode [0x0000000E, 0] = .instr (.out 0) [] ∧ decode [0x0000000F, 0] = .instr (.put 0) [] := by decide

/-- V1 to V4: the whole word is compared. -/
theorem test_decode_illegal :
    decode [26] = .rejected (.illegalOpcode 26) ∧ decode [0xFFFFFFFF] = .rejected (.illegalOpcode 0xFFFFFFFF) ∧
    decode [0x00000100] = .rejected (.illegalOpcode 0x100) ∧
    decode [0x10000002] = .rejected (.illegalOpcode 0x10000002) := by decide

theorem test_decode_short : decode [] = .rejected .noWord ∧ decode [0x18, 7] = .rejected .operandMissing := by decide

/-- The end of P3's image: ADD A, RET, least significant byte first. -/
theorem test_decode_bytes :
    decodeBytes [0x02, 0, 0, 0, 0, 0, 0, 0, 0x19, 0, 0, 0] = .instr (.add 0) [0x19, 0, 0, 0] := by decide

theorem test_encode_store_bytes :
    encodeBytes (.store 2 0xFFFFFFFF) = [0x0B, 0, 0, 0, 2, 0, 0, 0, 0xFF, 0xFF, 0xFF, 0xFF] := by decide

/-- The table's numbering: `CMP 1,2` in three words, and `CMP 0,0` from the opcode word alone. -/
theorem test_table_word :
    decodeTableWord 96 0x000000020000000100000013 = some (.cmp 1 2) ∧ decodeTableWord 32 0x13 = some (.cmp 0 0) ∧
    decodeTableWord 32 26 = none := by decide

/-- The word placed is the one the next step runs, as the first instruction after reset. -/
theorem test_fetch_word :
    after (State.reset.withFetchWord 96 0x000000050000000100000009) view = some ([0, 5, 0, 0, 0], 3, 0, .ok) := by decide

/-! ## Single steps (95_test_vectors.md) -/

/-- V5, V6: `pc = EOS` runs, a jump outside the code region succeeds. -/
theorem test_pc_bounds :
    after2 { boot [0] with pc := 1007 } view = some ([0, 0, 0, 0, 0], 1008, 0, .invalidAddress) ∧
    after2 (boot [20, -1]) view = some ([0, 0, 0, 0, 0], -1, 0, .invalidAddress) := by decide

/-- V7: operands from the stack region. V9: an operand outside the memory. -/
theorem test_operands_past_end :
    after { small [0, 0, 0, 0, 9] with pc := 4 } view = some ([0, 0, 0, 0, 0], 7, 0, .ok) ∧
    after { small [0, 0, 0, 0, 0, 0, 0, 9] with pc := 7, cfg := { memSize := 8, stackCap := 0 } } view =
      some ([0, 0, 0, 0, 0], 7, 0, .invalidAddress) := by decide

/-- V1: an unknown opcode. -/
theorem test_unknown_opcode : after (boot [26]) view = some ([0, 0, 0, 0, 0], 0, 0, .illegalInstruction) := by decide

/-- V14. -/
theorem test_nop : after (boot [0]) view = some ([0, 0, 0, 0, 0], 1, 0, .ok) := by decide

/-- V16 and V15. -/
theorem test_halt :
    after (State.with (boot [1]) 9 0 0 0 4) view = some ([9, 0, 0, 0, 4], 1, 0, .halted) ∧
    after2 (boot [1]) view = some ([0, 0, 0, 0, 0], 1, 0, .halted) := by decide

/-- V18, V20. -/
theorem test_add :
    after (State.with (boot [2, 1]) 0x7FFFFFFF 1 0 0 0) view =
      some ([-2147483648, 1, 0, 0, -2147483648], 2, 0, .ok) ∧
    after (State.with (boot [2, 0]) 5 0 0 0 0) view = some ([10, 0, 0, 0, 10], 2, 0, .ok) := by decide

/-- V22, V24. -/
theorem test_sub :
    after (State.with (boot [3, 1]) 0x80000000 1 0 0 0) view = some ([2147483647, 1, 0, 0, 2147483647], 2, 0, .ok) ∧
    after (State.with (boot [3, 0]) 5 0 0 0 0) view = some ([0, 0, 0, 0, 0], 2, 0, .ok) := by decide

/-- V25, V30. -/
theorem test_mul :
    after (State.with (boot [4, 1]) 6 (-7) 0 0 0) view = some ([-42, -7, 0, 0, -42], 2, 0, .ok) ∧
    after (State.with (boot [4, 1]) 46341 46341 0 0 0) view =
      some ([-2147479015, 46341, 0, 0, -2147479015], 2, 0, .ok) := by decide

/-- V32, V36: toward zero, and the wrap. -/
theorem test_div :
    after (State.with (boot [5, 1]) (-7) 2 0 0 0) view = some ([-3, 2, 0, 0, -3], 2, 0, .ok) ∧
    after (State.with (boot [5, 1]) 0x80000000 (-1) 0 0 0) view =
      some ([-2147483648, -1, 0, 0, -2147483648], 2, 0, .ok) := by decide

/-- S2: the zero divisor. -/
theorem test_div_zero :
    after (State.with (boot [5, 1, 1]) 10 0 0 0 0) view = some ([10, 0, 0, 0, 0], 1, 0, .divisionByZero) := by decide

/-- V39, V41. -/
theorem test_inc :
    after (State.with (boot [6, 1]) 0 0x7FFFFFFF 0 0 0) view =
      some ([0, -2147483648, 0, 0, -2147483648], 2, 0, .ok) ∧
    after (State.with (boot [6, 4]) 0 0 0 0 41) view = some ([0, 0, 0, 0, 42], 2, 0, .ok) := by decide

/-- V40. -/
theorem test_dec :
    after (State.with (boot [7, 1]) 0 0x80000000 0 0 0) view =
      some ([0, 2147483647, 0, 0, 2147483647], 2, 0, .ok) := by decide

/-- V43a: the difference wraps. -/
theorem test_cmp :
    after (State.with (boot [19, 0, 1]) 0x80000000 1 0 0 0) view =
      some ([-2147483648, 1, 0, 0, 2147483647], 3, 0, .ok) := by decide

/-- V46. -/
theorem test_movr : after (boot [9, 1, -1]) view = some ([0, -1, 0, 0, 0], 3, 0, .ok) := by decide

/-- V48, V50. -/
theorem test_swap :
    after (State.with (boot [16, 0, 4]) 5 0 0 0 7) view = some ([7, 0, 0, 0, 5], 3, 0, .ok) ∧
    after (State.with (boot [16, 1, 5]) 0 6 0 0 0) view = some ([0, 6, 0, 0, 0], 2, 0, .illegalOperand) := by decide

/-- V44, first step: the slot, then the state. V52. -/
theorem test_push :
    after (State.with (boot [17, 0, 18, 1]) 77 0 0 0 0) (fun t => (t.memRead 1023, view t)) =
      some (some 77, [77, 0, 0, 0, 0], 2, 1, .ok) ∧
    after { boot [17, 0] with cfg := { memSize := 1024, stackCap := 0 } } view =
      some ([0, 0, 0, 0, 0], 1, 0, .invalidStackOperation) := by decide

/-- V44, second step: the slot is zero again. V51. -/
theorem test_pop :
    after2 (State.with (boot [17, 0, 18, 1]) 77 0 0 0 0) (fun t => (t.memRead 1023, view t)) =
      some (some 0, [77, 77, 0, 0, 0], 4, 0, .ok) ∧
    after (boot [18, 0]) view = some ([0, 0, 0, 0, 0], 1, 0, .invalidStackOperation) := by decide

/-- V55: 20 for (D,n) = (2,-1), and an exact sum that is out of range. -/
theorem test_load :
    after (State.with (stack3 [10, 1, -1]) 0 0 0 2 0) view = some ([0, 20, 0, 2, 0], 3, 3, .ok) ∧
    after (State.with (stack3 [10, 1, 0x80000000]) 0 0 0 0x80000000 0) view =
      some ([0, 0, 0, -2147483648, 0], 2, 3, .invalidStackOperation) := by decide

/-- V57: the offset is computed from the old D. -/
theorem test_load_d : after (State.with (stack3 [10, 3, 0]) 0 0 0 1 0) view = some ([0, 0, 0, 20, 0], 3, 3, .ok) := by
  decide

/-- V56. -/
theorem test_store :
    after (State.with (stack3 [11, 0, 1]) 99 0 0 0 0) (fun t => ([t.memRead 1021, t.memRead 1022, t.memRead 1023], view t)) =
      some ([some 30, some 99, some 10], [99, 0, 0, 0, 0], 3, 3, .ok) := by decide

/-- V58. -/
theorem test_loop :
    after (State.with (boot [8, 6]) 0 0 (-1) 0 0) view = some ([0, 0, -1, 0, 0], 6, 0, .ok) ∧
    after (boot [8, 6]) view = some ([0, 0, 0, 0, 0], 2, 0, .ok) := by decide

/-- V59. -/
theorem test_jmp : after { boot [0, 20, 0] with pc := 1 } view = some ([0, 0, 0, 0, 0], 0, 0, .ok) := by decide

/-- V60. -/
theorem test_jz :
    after (boot [21, 40]) view = some ([0, 0, 0, 0, 0], 40, 0, .ok) ∧
    after (State.with (boot [21, 40]) 0 0 0 0 3) view = some ([0, 0, 0, 0, 3], 2, 0, .ok) := by decide

/-- V61. -/
theorem test_jnz :
    after (State.with (boot [22, 9]) 0 0 0 0 (-1)) view = some ([0, 0, 0, 0, -1], 9, 0, .ok) ∧
    after (boot [22, 9]) view = some ([0, 0, 0, 0, 0], 2, 0, .ok) := by decide

/-- V62. -/
theorem test_jgt :
    after (State.with (boot [23, 9]) 0 0 0 0 3) view = some ([0, 0, 0, 0, 3], 9, 0, .ok) ∧
    after (State.with (boot [23, 9]) 0 0 0 0 0x80000000) view = some ([0, 0, 0, 0, -2147483648], 2, 0, .ok) := by decide

/-- V63, V64. -/
theorem test_call :
    after (boot [24, 7, 3]) (fun t => (t.memRead 1023, view t)) = some (some 3, [0, 0, 0, 0, 0], 7, 1, .ok) ∧
    after { boot [24, 5, 3] with cfg := { memSize := 1024, stackCap := 0 } } view =
      some ([0, 0, 0, 0, 0], 2, 0, .invalidStackOperation) := by decide

/-- P3's step 4, and V65. -/
theorem test_ret :
    after { boot [25] with mem := Memory.setWord (Memory.setWord [] 0 25) 1023 6, ssize := 1 }
      (fun t => (t.memRead 1023, view t)) = some (some 0, [0, 0, 0, 0, 0], 6, 0, .ok) ∧
    after (boot [25]) view = some ([0, 0, 0, 0, 0], 0, 0, .invalidStackOperation) := by decide

/-- V68: `"  +7x"`. -/
theorem test_in :
    after (State.inputs (boot [12, 0, 1]) [0x20, 0x20, 0x2B, 0x37, 0x78]) (fun t => (t.input.bytes, view t)) =
      some ([0x78], [7, 0, 0, 0, 0], 2, 0, .ok) := by decide

/-- V71: `"2147483648"` does not fit. -/
theorem test_in_range :
    after (State.inputs (boot [12, 0, 1]) [0x32, 0x31, 0x34, 0x37, 0x34, 0x38, 0x33, 0x36, 0x34, 0x38])
      (fun t => (t.input.bytes.length, view t)) = some (10, [0, 0, 0, 0, 0], 1, 0, .ioError) := by decide

/-- V75, V77. -/
theorem test_get :
    after (State.inputs (boot [13, 0, 1]) [0xFF]) view = some ([255, 0, 0, 0, 0], 2, 0, .ok) ∧
    after (State.with (boot [13, 2, 1]) 0 0 7 0 0) view = some ([0, 0, -1, 0, 0], 2, 0, .ok) := by decide

/-- V79, V78. -/
theorem test_out :
    after (State.with (boot [14, 0]) (-42) 0 0 0 0) (fun t => (t.output, view t)) =
      some ([0x2D, 0x34, 0x32], [-42, 0, 0, 0, 0], 2, 0, .ok) ∧
    after (boot [14, 0]) (fun t => t.output) = some [0x30] := by decide

/-- V82. -/
theorem test_put :
    after (State.with (boot [15, 0]) 255 0 0 0 0) (fun t => (t.output, view t)) =
      some ([0xFF], [255, 0, 0, 0, 0], 2, 0, .ok) := by decide

/-- V83. -/
theorem test_put_range :
    after (State.with (boot [15, 0]) 256 0 0 0 0) (fun t => (t.output, view t)) =
      some ([], [256, 0, 0, 0, 0], 1, 0, .illegalOperand) := by decide

/-- V87, V88: which kind wins. -/
theorem test_priority :
    after (boot [5, 9]) view = some ([0, 0, 0, 0, 0], 1, 0, .illegalOperand) ∧
    after (boot [18, -1]) view = some ([0, 0, 0, 0, 0], 1, 0, .illegalOperand) := by decide

/-- R257: the default memory size. -/
theorem test_default_memory_size : defaultMemSize 1008 16 = 1024 ∧ defaultMemSize 1009 16 = 2048 := by decide

/-! ## Witnesses: a state and operands that meet the hypotheses of each statement

The index words 0 and 4 are the bounds of `Names`, -1 and 5 those of `NamesNone`. -/

/-- A machine of eight words with two of three stack slots occupied, in the middle of a program. -/
def mid : State :=
  { small [] with
    mem := Memory.setWords (Memory.setWords [] 0 [14, 0, 2]) 6 [0xFFFFFFFF, 10]
    ssize := 2
    pc := 2
    regs := ⟨7, -2, -1, -1, -3⟩
    input := { bytes := [0x20, 0x35], ended := false } }

/-- The same with a full stack. -/
def full : State := { mid with ssize := 3 }

/-- The same with an empty one, its slots zero. -/
def empty : State := { mid with mem := Memory.setWords [] 0 [14, 0, 2], ssize := 0 }

theorem test_witness_names : Names 0 .A ∧ Names 1 .B ∧ Names 2 .C ∧ Names 3 .D ∧ Names 4 .RES := by
  simp only [Names]
  decide

theorem test_witness_names_none : NamesNone (-1) ∧ NamesNone 5 ∧ HasFormFR (.pop 5) 5 ∧ HasFormFR (.add (-1)) (-1) := by
  simp only [NamesNone, HasFormFR]
  decide

theorem test_witness_inv : mid.Inv := ⟨by decide, by decide, by decide, by decide, by decide⟩

theorem test_witness_inv_room : mid.Inv ∧ mid.ssize < mid.cfg.stackCap ∧ Names 0 .A ∧ Names 4 .RES :=
  ⟨test_witness_inv, by decide, test_witness_names.1, test_witness_names.2.2.2.2⟩

/-- StepKeepsTheInvariant, CodeRegionIsNeverWritten, and the third part of StackCounterStaysWithinCapacity. -/
theorem test_witness_inv_step : ∃ t, mid.Inv ∧ mid.ssize ≤ mid.cfg.stackCap ∧ step mid = .next t :=
  ⟨_, test_witness_inv, by decide, rfl⟩

/-- DecodedWordsAreTheEncoding. -/
theorem test_witness_decoded : decode [24, 7, 6, 1] = .instr (.call 7 6) [1] := by decide

/-- IllegalOpcodesAreThoseOutsideZeroTo25, both sides at the bounds. -/
theorem test_witness_illegal_bounds :
    (-1 : Word).toInt < 0 ∧ 25 < (26 : Word).toInt ∧ decode [25] = .instr .ret [] ∧ decode [0] = .instr .nop [] := by
  decide

/-- StepRefusedUnlessStatusOk, OnlyResetLeavesAStatusOtherThanOk. -/
theorem test_witness_not_ok :
    (State.busy { mid with status := .ioError } .step).machine.status ≠ .ok ∧
    Event.command (.run 5) ≠ .command .reset ∧ Event.resume ≠ .command .reset := by
  decide

/-- PcOutsideCodeRegionRaisesInvalidAddress: below, above, no code region, and `pc = EOS`. -/
theorem test_witness_pc_outside :
    mid.status = .ok ∧ ({ mid with pc := -1 } : State).pc.toInt < 0 ∧
    (mid.cfg.memSize : Int) - mid.cfg.stackCap - 1 < ({ mid with pc := 5 } : State).pc.toInt ∧
    ({ mid with cfg := { memSize := 8, stackCap := 8 } } : State).cfg.memSize = 8 ∧
    ({ mid with pc := 4 } : State).pc.toInt = (mid.cfg.memSize : Int) - mid.cfg.stackCap - 1 ∧
    ({ mid with pc := 4 } : State).memRead 4 = some 0 := by decide

/-- UnknownOpcodeRaisesIllegalInstruction, 26 and -1. -/
theorem test_witness_unknown :
    (boot [26]).status = .ok ∧ 0 ≤ (boot [26]).pc.toInt ∧ (boot [26]).pc.toInt ≤ endOfStack (boot [26]).cfg ∧
    (boot [26]).memRead 0 = some 26 ∧ 25 < (26 : Word).toInt ∧
    (boot [-1]).memRead 0 = some (-1) ∧ (-1 : Word).toInt < 0 := by decide

/-- StepRunsTheDecodedInstruction: MOVR at `EOS`, its operands in the stack region. -/
def atEnd : State := { small [0, 0, 0, 0, 9, 1, 3] with pc := 4 }

theorem test_witness_decoded_at_pc :
    atEnd.status = .ok ∧ 0 ≤ atEnd.pc.toInt ∧ atEnd.pc.toInt ≤ endOfStack atEnd.cfg ∧
    ∀ (j : Nat) (w : Word), (encode (.movr 1 3))[j]? = some w → atEnd.memRead (atEnd.pc.toInt + j) = some w := by
  refine ⟨by decide, by decide, by decide, ?_⟩
  intro j w h
  match j with
  | 0 => cases h; decide
  | 1 => cases h; decide
  | 2 => cases h; decide
  | j + 3 => simp [encode, Instr.operands] at h

/-- OperandOutsideMemoryRaisesInvalidAddress: the last word holds MOVR (V9). -/
theorem test_witness_operand_outside :
    let s : State := { small [0, 0, 0, 0, 0, 0, 0, 9] with pc := 7, cfg := { memSize := 8, stackCap := 0 } }
    s.status = .ok ∧ 0 ≤ s.pc.toInt ∧ s.pc.toInt ≤ endOfStack s.cfg ∧
      s.memRead s.pc.toInt = some (Instr.movr 0 0).opcode ∧
      (s.cfg.memSize : Int) ≤ s.pc.toInt + (Instr.movr 0 0).operandCount := by decide

/-- FailingStepChangesOnlyStatusAndPc: a failing IN that consumes a blank, and a failing DIV. -/
theorem test_witness_failing_step :
    after (State.inputs (boot [12, 0]) [0x20, 0x78]) (fun t => (t.status, t.input.bytes)) = some (.ioError, [0x78]) ∧
    after (boot [5, 1]) (fun t => t.status) = some .divisionByZero := by decide

/-- RunResultSaysHowItStopped, RunIsIteratedStep: results 0, 2 and -2, and -1 on an inert machine. -/
theorem test_witness_run :
    (run 0 (boot [0, 1])).1 = .count 0 ∧ (run 9 (boot [0, 1])).1 = .count 2 ∧ (run 9 (boot [0, 26])).1 = .count (-2) ∧
    (run 1 (boot [0, 1])).1 = .count 1 ∧ (run 9 { boot [0] with status := .halted }).1 = .count (-1) := by decide

/-- NoCommandWhileOneIsInProgress, WaitingCommandResumesAsIfInputHadBeenThere: a RUN of a NOP and an IN that waits, and a STEP
that waits. -/
def waiting : State := { boot [0, 12, 0, 1] with input := { bytes := [0x20, 0x34], ended := false } }

theorem test_witness_waiting :
    command (.run 9) waiting.idle = (.waiting, State.busy { waiting with pc := 1 } (.run 8 1)) ∧
    command .step (State.idle { waiting with pc := 1 }) = (.waiting, State.busy { waiting with pc := 1 } .step) := by
  decide

/-- R287, R110: fed `"2 "`, the waiting RUN goes on to 42 and HALT, and counts its three steps; meanwhile reset is no move. -/
theorem test_resume :
    let σ := (command (.run 9) waiting.idle).2
    command .reset σ = (.noMove, σ) ∧
    (resume (act (.feed [0x32, 0x20]) σ).2).1 = .count 3 ∧
    view (resume (act (.feed [0x32, 0x20]) σ).2).2.machine = ([42, 0, 0, 0, 0], 4, 0, .halted) := by decide

/-- FallingOffTheEndRaisesInvalidAddress: five zero words, and none (`pc = EOS + 1`). -/
theorem test_witness_falling :
    (small []).status = .ok ∧ (small []).cfg.valid = true ∧ 0 ≤ (small []).pc.toInt ∧
    (small []).pc.toInt + 5 = ((small []).cfg.memSize : Int) - (small []).cfg.stackCap ∧
    (∀ j : Nat, j < 5 → (small []).memRead ((small []).pc.toInt + j) = some 0) ∧ (5 : Int) < 6 ∧
    ({ small [] with pc := 5 } : State).pc.toInt + 0 = ((small []).cfg.memSize : Int) - (small []).cfg.stackCap := by
  decide

/-- DivTruncatesOrRaisesDivisionByZero: a divisor, none, and the one quotient out of range. -/
theorem test_witness_div :
    mid.getReg .B ≠ 0 ∧ ¬ ((mid.getReg .A).toInt = intMin ∧ (mid.getReg .B).toInt = -1) ∧
    (boot []).getReg .B = 0 ∧ ((State.with (boot []) 0x80000000 (-1) 0 0 0).getReg .A).toInt = intMin := by decide

/-- ResultRegisterKeptByThirteenInstructions. -/
theorem test_witness_keeps_result :
    ∃ t, keepsResult (.out 0) = true ∧ keepsResult .ret = true ∧ exec (.out 0) mid = .next t := ⟨_, rfl, rfl, rfl⟩

/-- PushStoresInTheNextSlot, CallPushesAndJumps. -/
theorem test_witness_push :
    mid.ssize < mid.cfg.stackCap ∧ mid.cfg.stackCap ≤ mid.cfg.memSize ∧ Memory.wf mid.mem = true ∧
    empty.ssize < empty.cfg.stackCap ∧ Memory.wf empty.mem = true := by decide

/-- PopTakesTheTopAndZeroesIt, RetPopsAndJumps. -/
theorem test_witness_pop :
    0 < mid.ssize ∧ mid.ssize ≤ mid.cfg.memSize ∧ Memory.wf mid.mem = true ∧ 0 < full.ssize := by decide

/-- LoadReadsTheSlotBelowTheTop, StoreWritesTheSlotBelowTheTop: the offsets 0 and 1 of a stack of two. -/
theorem test_witness_slot :
    0 ≤ (mid.getReg .D).toInt + (1 : Word).toInt ∧ (mid.getReg .D).toInt + (1 : Word).toInt < mid.ssize ∧
    0 ≤ (mid.getReg .D).toInt + (2 : Word).toInt ∧ (mid.getReg .D).toInt + (2 : Word).toInt < mid.ssize := by decide

/-- StackBoundsRaiseInvalidStackOperation, StackCounterStaysWithinCapacity: full, empty, below the top, past the bottom. -/
theorem test_witness_stack_bounds :
    full.ssize = full.cfg.stackCap ∧ empty.ssize = 0 ∧ (mid.getReg .D).toInt + (0 : Word).toInt < 0 ∧
    (mid.ssize : Int) ≤ (mid.getReg .D).toInt + (3 : Word).toInt := by decide

/-- The first part of StackCounterStaysWithinCapacity, and CreateGivesThePowerOnState at the bound `p + STACK_CAP = MEM_SIZE`. -/
theorem test_witness_create :
    (create { memSize := 8, stackCap := 6 } [2, 1] { bytes := [], ended := false } []).isSome = true ∧
    (create { memSize := 8, stackCap := 7 } [2, 1] { bytes := [], ended := false } []).isSome = false := by decide

/-- CallThenReturnRestoresTheStack: a state a subroutine may end in. -/
theorem test_witness_call_return :
    ∃ u, exec (.call 4 3) mid = .next u ∧ ({ u with pc := 9, regs := RegFile.zero } : State).cfg = u.cfg ∧
      ({ u with pc := 9, regs := RegFile.zero } : State).mem = u.mem ∧
      ({ u with pc := 9, regs := RegFile.zero } : State).ssize = u.ssize := ⟨_, rfl, rfl, rfl, rfl⟩

/-- InReadsAnIntegerOrRaisesIoError: the three answers. -/
theorem test_witness_in :
    InDev.readInt { bytes := [0x37, 0x20], ended := false } = .int 7 { bytes := [0x20], ended := false } ∧
    InDev.readInt { bytes := [0x20, 0x78], ended := false } = .fail { bytes := [0x78], ended := false } ∧
    mid.input.readInt = .wait := by decide

/-- ReaderAcceptsSignedDecimal, both clauses at the bounds: 2147483647, 2147483648, -2147483648, -2147483649. -/
theorem test_witness_reader :
    let ds : List Byte := [0x32, 0x31, 0x34, 0x37, 0x34, 0x38, 0x33, 0x36, 0x34]
    tokenValue [] (ds ++ [0x37]) = intMax ∧ tokenValue [0x2B] (ds ++ [0x38]) = intMax + 1 ∧
    tokenValue [0x2D] (ds ++ [0x38]) = intMin ∧ tokenValue [0x2D] (ds ++ [0x39]) = intMin - 1 := by decide

/-- ReaderAcceptsSignedDecimal: the other hypotheses, on `" 42x"`. -/
theorem test_witness_reader_bytes :
    (∀ b ∈ ([0x20] : List Byte), Whitespace b) ∧ ([0x34, 0x32] : List Byte) ≠ [] ∧
    (∀ b ∈ ([0x34, 0x32] : List Byte), AsciiDigit b) ∧ ¬ AsciiDigit 0x78 := by
  simp only [Whitespace, AsciiDigit]
  decide

/-- ReaderFailsOrWaitsWithoutToken: `" x"` with no sign, and `"-"` at the end. -/
theorem test_witness_no_token :
    ¬ AsciiDigit 0x78 ∧ ¬ Whitespace 0x78 ∧ (0x78 : Byte) ≠ 0x2D ∧ (0x78 : Byte) ≠ 0x2B ∧
    (∀ b, ([] : List Byte).head? = some b → ¬ AsciiDigit b) := by
  refine ⟨?_, ?_, by decide, by decide, by simp⟩ <;> simp only [Whitespace, AsciiDigit] <;> decide

/-- GetReadsAByteOrTheEndOfStream: a byte, the end, neither. -/
theorem test_witness_get :
    mid.input.bytes = 0x20 :: [0x35] ∧ (boot []).input.bytes = [] ∧ (boot []).input.ended = true ∧
    ({ mid with input := { bytes := [], ended := false } } : State).input.ended = false ∧ Reg.A ≠ .C := by decide

/-- PutAppendsOneByteOrRaises, at 0, 255, 256 and -1. -/
theorem test_witness_put :
    0 ≤ (0 : Word).toInt ∧ (255 : Word).toInt ≤ 255 ∧ 255 < (256 : Word).toInt ∧ (-1 : Word).toInt < 0 := by decide

/-- LoaderAssemblesLittleEndianWords: both lengths, and an index inside. -/
theorem test_witness_loader :
    ([1, 2, 3] : List Byte).length % 4 ≠ 0 ∧ loadWords [0x02, 0x01, 0, 0xFF] = some [0xFF000102] ∧
    loadWords [] = some [] := by decide

/-- SoftResetClearsAllButPcAndCode, OtherAccessorsReadOrSetPc: the first and last stack words, and an index inside. -/
theorem test_witness_indices :
    mid.cfg.memSize - mid.cfg.stackCap ≤ 5 ∧ 7 < mid.cfg.memSize ∧ 19 < 4 * (mid.cfg.memSize - mid.cfg.stackCap) := by
  decide

end Sys2Proof.Tests
end

/-! # The invariant and the stack counter (10_state.md R31; 20_memory.md R50, R58) -/

namespace Sys2Proof.Machine

variable {s t : State}

/-- An effect on the stack moves the counter by at most one, and never past the capacity (10_state.md R31). -/
theorem StackEffect.ssize_le (h : StackEffect s t) (hs : s.ssize ≤ s.cfg.stackCap) : t.ssize ≤ s.cfg.stackCap := by
  cases h with
  | same _ hn | popped _ _ _ _ hn | stored _ _ _ _ _ _ _ hn => omega
  | pushed _ room _ _ _ hn => omega

/-- The invariant speaks of the parameters, the memory and the counter only. -/
theorem State.Inv.congr (hs : s.Inv) (hc : t.cfg = s.cfg) (hm : t.mem = s.mem) (hn : t.ssize = s.ssize) : t.Inv := by
  obtain ⟨hvalid, hwf, hin, hle, hzero⟩ := hs
  constructor <;> simpa only [hc, hm, hn]

/-- One word written inside the memory keeps the invariant where every slot that is free afterwards is the word written, with
zero, or was free before. -/
theorem State.Inv.setWord {i : Nat} {v : Word} (hs : s.Inv) (hc : t.cfg = s.cfg) (hm : t.mem = Memory.setWord s.mem i v)
    (hi : i < s.cfg.memSize) (hn : t.ssize ≤ s.cfg.stackCap)
    (hfree : ∀ j, j < s.cfg.stackCap → t.ssize ≤ j →
      (s.cfg.memSize - 1 - j = i ∧ v = 0) ∨ (s.cfg.memSize - 1 - j ≠ i ∧ s.ssize ≤ j)) : t.Inv where
  cfgValid := hc ▸ hs.cfgValid
  memWf := hm ▸ wf_setWord hs.memWf
  memInside := by
    intro c hmem
    rw [hm] at hmem
    rw [hc]
    rcases mem_setWord hmem with hold | hnew
    · exact hs.memInside c hold
    · omega
  ssizeLe := hc ▸ hn
  freeZero := by
    intro j hj hle
    rw [hc] at hj ⊢
    rw [hm]
    rcases hfree j hj hle with ⟨rfl, rfl⟩ | ⟨hne, hold⟩
    · exact word_setWord_same hs.memWf
    · rw [word_setWord_ne hne]
      exact hs.freeZero j hj hold

/-- Every effect on the stack keeps the invariant: a push fills the first free slot, a pop zeroes the one it frees (D10), a
store stays among the occupied ones. -/
theorem StackEffect.inv (h : StackEffect s t) (hc : t.cfg = s.cfg) (hs : s.Inv) : t.Inv := by
  have hn := h.ssize_le hs.ssizeLe
  have hle := hs.ssizeLe
  have hcap := (Config.valid_iff.mp hs.cfgValid).1
  cases h with
  | same mem ssize => exact hs.congr hc mem ssize
  | pushed v room low high mem ssize =>
    rw [pushIndex_eq] at low high mem
    exact hs.setWord hc mem (by omega) hn fun j hj hfree => .inr (by omega)
  | popped occupied low high mem ssize =>
    rw [topIndex_eq] at low high mem
    refine hs.setWord hc mem (by omega) hn fun j hj hfree => ?_
    by_cases hfreed : j = s.ssize - 1
    · exact .inl ⟨by omega, rfl⟩
    · exact .inr (by omega)
  | stored off v low high inLow inHigh mem ssize =>
    rw [topIndex_eq] at inLow inHigh mem
    exact hs.setWord hc mem (by omega) hn fun j hj hfree => .inr (by omega)

/-- Settles O53: whatever the instruction, a step is one of the four effects on the stack, and each keeps the invariant. -/
theorem stepKeepsTheInvariant : Obligations.StepKeepsTheInvariant := by
  intro s t hs h
  obtain ⟨hc, heffect⟩ := step_effect h
  exact heffect.inv hc hs

end Sys2Proof.Machine

/-! # The instructions that write no register (10_state.md R25) -/

namespace Sys2Proof.Machine

variable {s t u : State}

/-- Where a handler with one register operand goes when it answers a next state. -/
theorem withReg_next {k : Nat} {w : Word} {go : Reg → State → Result} (h : withReg k w s go = .next t) :
    (∃ q, Names w q ∧ go q (s.skipOperands k) = .next t) ∨
      (NamesNone w ∧ t = raisedState .illegalOperand k s) := by
  rcases withReg_cases k w s go with ⟨q, hq, e⟩ | ⟨hw, e⟩
  · exact .inl ⟨q, hq, e ▸ h⟩
  · rw [e] at h
    exact .inr ⟨hw, (Host.Outcome.next.inj h).symm⟩

/-- A handler with one register operand keeps the registers when what it goes on with does. -/
theorem regs_withReg {k : Nat} {w : Word} {go : Reg → State → Result} (h : withReg k w s go = .next t)
    (hgo : ∀ q u, go q u = .next t → t.regs = u.regs) : t.regs = s.regs := by
  rcases withReg_next h with ⟨q, _, hq⟩ | ⟨_, rfl⟩
  · exact hgo q (s.skipOperands k) hq
  · rfl

/-- An operation that may raise keeps the registers when what it goes on with does. -/
theorem regs_resolve {α : Type} {r : Attempt α} {go : α → Result} (h : r.resolve s go = .next t)
    (hgo : ∀ a, r = .done a → go a = .next t → t.regs = s.regs) : t.regs = s.regs := by
  rcases resolve_next h with ⟨a, ha, hg⟩ | ⟨e, _, rfl⟩
  · exact hgo a ha hg
  · rfl

theorem regs_push {v : Word} (h : s.push v = .done u) : u.regs = s.regs := by
  obtain ⟨_, _, rfl⟩ := push_done.mp h
  rfl

theorem regs_pop {v : Word} (h : s.pop = .done (v, u)) : u.regs = s.regs := by
  obtain ⟨_, _, _, rfl⟩ := pop_done.mp h
  rfl

theorem regs_memWrite {i : Int} {v : Word} (h : s.memWrite i v = some u) : u.regs = s.regs := by
  obtain ⟨_, rfl⟩ := memWrite_eq.mp h
  rfl

theorem regs_emit (s : State) (bs : List Byte) : (s.emit bs).regs = s.regs := rfl

theorem regs_succeed (h : succeed u = .next t) : t.regs = u.regs := by
  cases h
  rfl

theorem regs_raise {e : ErrorKind} (h : raise e u = .next t) : t.regs = u.regs := by
  cases h
  rfl

theorem regs_jumpTo {a : Word} (h : jumpTo a u = .next t) : t.regs = u.regs := by
  cases h
  rfl

theorem regs_branch {b : Bool} {a : Word} (h : branch b a s = .next t) : t.regs = s.regs := by
  rw [branch_eq] at h
  cases h
  rfl

/-- The thirteen instructions of 10_state.md R25 write no register at all. -/
theorem regs_exec_of_keepsResult {i : Instr} (hi : keepsResult i = true) (h : exec i s = .next t) :
    t.regs = s.regs := by
  cases i
  case nop => exact regs_succeed h
  case halt =>
    cases h
    rfl
  case loop | jmp | jz | jnz | jgt =>
    simp only [exec, execLoop, execJmp, execJz, execJnz, execJgt] at h
    exact regs_branch h
  case call =>
    simp only [exec, execCall] at h
    exact regs_resolve (s := s.skipOperands 2) h fun _ hu hg => (regs_jumpTo hg).trans (regs_push hu)
  case ret =>
    simp only [exec, execRet] at h
    exact regs_resolve h fun _ hu hg => (regs_jumpTo hg).trans (regs_pop hu)
  case push =>
    simp only [exec, execPush] at h
    exact regs_withReg h fun _ _ h => regs_resolve h fun _ hu hg => (regs_succeed hg).trans (regs_push hu)
  case store =>
    simp only [exec, execStore] at h
    refine regs_withReg h fun _ _ h => regs_resolve h fun _ _ hg => ?_
    split at hg
    · rename_i hu
      exact (regs_succeed hg).trans (regs_memWrite hu)
    · cases hg
  case out =>
    simp only [exec, execOut] at h
    exact regs_withReg h fun _ _ h => (regs_succeed h).trans (regs_emit ..)
  case put =>
    simp only [exec, execPut] at h
    refine regs_withReg h fun _ _ h => ?_
    split at h
    · exact regs_raise h
    · exact (regs_succeed h).trans (regs_emit ..)
  all_goals cases hi

/-- Settles O21: the thirteen instructions leave the whole register file as it was, Result included. -/
theorem resultRegisterKeptByThirteenInstructions : Obligations.ResultRegisterKeptByThirteenInstructions := by
  intro i s t hi h
  exact congrArg RegFile.res (regs_exec_of_keepsResult hi h)

end Sys2Proof.Machine

/-! # Power-on (10_state.md R38; 70_reset_and_hazards.md R250, R251, R258) -/

namespace Sys2Proof.Machine

variable {cfg : Config} {image : List Word} {input : InDev} {output : List Byte} {s : State}

/-- The state `create` answers where it answers one (`create_eq_some`). -/
def powerOn (cfg : Config) (image : List Word) (input : InDev) (output : List Byte) : State :=
  { cfg := cfg
    mem := Memory.setWords [] 0 image
    regs := RegFile.zero
    pc := 0
    ssize := 0
    status := .ok
    input := input
    output := output }

theorem create_eq_some : create cfg image input output = some s ↔
    (cfg.valid = true ∧ image.length + cfg.stackCap ≤ cfg.memSize) ∧ s = powerOn cfg image input output := by
  unfold create
  by_cases h : cfg.valid = true ∧ image.length + cfg.stackCap ≤ cfg.memSize
  · rw [if_pos h, Option.some.injEq]
    exact ⟨fun e => ⟨h, e.symm⟩, fun e => e.2.symm⟩
  · rw [if_neg h]
    exact iff_of_false (by simp) fun e => h e.1

theorem create_isSome : (create cfg image input output).isSome = true ↔
    cfg.valid = true ∧ image.length + cfg.stackCap ≤ cfg.memSize := by
  simp [Option.isSome_iff_exists, create_eq_some]

/-- `State.reset` is the power-on state of the empty image, in the configuration and with the devices of log 2 and log 4. -/
theorem reset_eq_powerOn : State.reset = powerOn Config.default [] { bytes := [], ended := true } [] := rfl

theorem getReg_powerOn (q : Reg) : (powerOn cfg image input output).getReg q = 0 := getReg_zero ..

/-- Memory that holds an image from index 0 on reads as the image, and zero behind it. -/
theorem word_setWords_nil (image : List Word) (i : Nat) :
    Memory.word (Memory.setWords [] 0 image) i = image[i]?.getD 0 := by
  cases h : image[i]? with
  | none => rw [word_setWords_after (by simpa using h), word_nil, Option.getD_none]
  | some w => simpa using word_setWords_at (m := []) (i := 0) rfl h

theorem memRead_powerOn {i : Nat} (hi : i < cfg.memSize) :
    (powerOn cfg image input output).memRead i = some (image[i]?.getD 0) := by
  rw [memRead_isSome (by omega) (Int.ofNat_lt.mpr hi), Int.toNat_natCast]
  exact congrArg some (word_setWords_nil image i)

/-- The power-on state satisfies the invariant: the image lies in the code/data region, so the stack region is all zero. -/
theorem inv_powerOn (hvalid : cfg.valid = true) (hfit : image.length + cfg.stackCap ≤ cfg.memSize) :
    (powerOn cfg image input output).Inv where
  cfgValid := hvalid
  memWf := wf_setWords rfl
  memInside := by
    intro c hc
    have hlt : c.1 < 4 * (0 + image.length) := by
      rcases mem_setWords hc with hnil | hin
      · cases hnil
      · exact hin.2
    show c.1 < 4 * cfg.memSize
    omega
  ssizeLe := Nat.zero_le _
  freeZero := by
    intro j hj _
    have hj' : j < cfg.stackCap := hj
    show Memory.word (Memory.setWords [] 0 image) (cfg.memSize - 1 - j) = 0
    rw [word_setWords_after (by omega), word_nil]

/-- Settles O45: `create` answers exactly `powerOn`, exactly where the configuration is valid and the image fits. -/
theorem createGivesThePowerOnState : Obligations.CreateGivesThePowerOnState := by
  intro cfg image input output
  constructor
  · rw [create_isSome, Config.valid_iff, and_assoc]
    rfl
  · intro s hs
    obtain ⟨⟨hvalid, hfit⟩, rfl⟩ := create_eq_some.mp hs
    exact ⟨getReg_powerOn, rfl, rfl, rfl, rfl, rfl, rfl, fun _ hi => memRead_powerOn hi, inv_powerOn hvalid hfit⟩

/-- Settles O46: the configuration of `State.reset` is valid and holds the empty image. -/
theorem resetIsThePowerOnStateOfTheEmptyImage : Obligations.ResetIsThePowerOnStateOfTheEmptyImage :=
  ⟨create_eq_some.mpr ⟨⟨by decide, by decide⟩, reset_eq_powerOn⟩,
    fun _ => by rw [reset_eq_powerOn, getReg_powerOn], rfl, rfl, rfl⟩

/-- Settles O52: it is a power-on state, and those satisfy the invariant. -/
theorem resetSatisfiesTheInvariant : Obligations.ResetSatisfiesTheInvariant := by
  unfold Obligations.ResetSatisfiesTheInvariant
  rw [reset_eq_powerOn]
  exact inv_powerOn (by decide) (by decide)

end Sys2Proof.Machine

/-! # The stack counter at its bounds (10_state.md R31) -/

namespace Sys2Proof.Machine

variable {s t : State}

/-- The counter's bound alone is kept by every step, without the rest of the invariant. -/
theorem ssize_le_step (hs : s.ssize ≤ s.cfg.stackCap) (h : step s = .next t) : t.ssize ≤ t.cfg.stackCap := by
  obtain ⟨hc, heffect⟩ := step_effect h
  rw [hc]
  exact heffect.ssize_le hs

/-- Going on from a push onto a full stack raises (44_stack.md R160). -/
theorem resolve_push_of_full {v : Word} {go : State → Result} (hfull : s.ssize = s.cfg.stackCap) :
    (s.push v).resolve s go = raise .invalidStackOperation s := by
  rw [push_raises.mpr ⟨hfull, rfl⟩]
  rfl

/-- Going on from a pop of an empty stack raises (44_stack.md R161). -/
theorem resolve_pop_of_empty {go : Word × State → Result} (hempty : s.ssize = 0) :
    s.pop.resolve s go = raise .invalidStackOperation s := by
  rw [pop_raises.mpr ⟨hempty, rfl⟩]
  rfl

theorem exec_push_of_full {w : Word} {q : Reg} (hw : Names w q) (hfull : s.ssize = s.cfg.stackCap) :
    exec (.push w) s = .next (raisedState .invalidStackOperation 1 s) := by
  rw [exec, execPush, withReg_names hw]
  exact resolve_push_of_full (s := s.skipOperands 1) hfull

theorem exec_call_of_full {n m : Word} (hfull : s.ssize = s.cfg.stackCap) :
    exec (.call n m) s = .next (raisedState .invalidStackOperation 2 s) :=
  resolve_push_of_full (s := s.skipOperands 2) hfull

theorem exec_pop_of_empty {w : Word} {q : Reg} (hw : Names w q) (hempty : s.ssize = 0) :
    exec (.pop w) s = .next (raisedState .invalidStackOperation 1 s) := by
  rw [exec, execPop, withReg_names hw]
  exact resolve_pop_of_empty (s := s.skipOperands 1) hempty

theorem exec_ret_of_empty (hempty : s.ssize = 0) :
    exec .ret s = .next (raisedState .invalidStackOperation 0 s) := by
  have hpc : s.pc + BitVec.ofNat 32 0 = s.pc := BitVec.add_zero _
  rw [raisedState, hpc]
  exact resolve_pop_of_empty hempty

/-- Settles O30: the bound at create and reset, through every step, and the four instructions that would pass it. -/
theorem stackCounterStaysWithinCapacity : Obligations.StackCounterStaysWithinCapacity := by
  refine ⟨?_, ?_, ?_, ?_⟩
  · intro cfg image input output s hs
    obtain ⟨_, rfl⟩ := create_eq_some.mp hs
    exact ⟨rfl, Nat.zero_le _⟩
  · exact fun s => ⟨softReset_ssize s, Nat.zero_le _⟩
  · exact fun s t => ssize_le_step
  · intro s w n m q hw
    exact ⟨fun hfull => ⟨exec_push_of_full hw hfull, exec_call_of_full hfull⟩,
      fun hempty => ⟨exec_pop_of_empty hw hempty, exec_ret_of_empty hempty⟩⟩

end Sys2Proof.Machine

/-! # The output is write-only (10_state.md R34) -/

namespace Sys2Proof.Machine

/-- A step, waiting or not, does the same whatever was written before: only what it appends counts. -/
theorem step_mapOutput {g : List Byte → List Byte} (hg : ∀ xs ys, g (xs ++ ys) = g xs ++ ys) (s : State) :
    step (s.mapDevices id g) = mapResult id g (step s) := by
  unfold step
  rw [mapDevices_status, fetch_mapDevices]
  split
  · split
    · rename_i i _
      cases hw : waitsForInput i s with
      | false => exact exec_mapDevices laterInput_id hg hw
      | true =>
        have hw' : waitsForInput i (s.mapDevices id g) = true := hw
        rw [exec_of_waits hw, exec_of_waits hw']
        rfl
    · rfl
  · rfl

/-- Settles O44: putting earlier bytes in front of the output is a map on the output device that commutes with appending. -/
theorem outputIsNeverReadBack : Obligations.OutputIsNeverReadBack := by
  intro s before
  have h := step_mapOutput (g := (before ++ ·)) (fun xs ys => (List.append_assoc before xs ys).symm) s
  refine h.trans ?_
  cases step s <;> rfl

end Sys2Proof.Machine

/-! # The host's reset (10_state.md R39; 70_reset_and_hazards.md R252, R253) -/

namespace Sys2Proof.Machine

variable {s : State}

/-- Reset leaves zero in every word of the stack region (D29). -/
theorem memRead_softReset_stack {i : Nat} (hlow : s.cfg.memSize - s.cfg.stackCap ≤ i) (hhigh : i < s.cfg.memSize) :
    s.softReset.memRead i = some 0 := by
  rw [memRead_isSome (s := s.softReset) (by omega) (Int.ofNat_lt.mpr hhigh), Int.toNat_natCast]
  exact congrArg some (word_clearWords_inside hlow hhigh)

/-- Reset leaves every byte of the code/data region. -/
theorem byte_softReset_code {a : Nat} (ha : a < 4 * (s.cfg.memSize - s.cfg.stackCap)) :
    Memory.byte s.softReset.mem a = Memory.byte s.mem a :=
  byte_clearWords.trans (if_neg (by omega))

/-- Settles O47: the command answers done with `softReset`, whatever the status. -/
theorem softResetClearsAllButPcAndCode : Obligations.SoftResetClearsAllButPcAndCode := fun s =>
  ⟨s.softReset, rfl, getReg_softReset s, rfl, rfl, rfl, rfl, rfl, rfl, fun _ => memRead_softReset_stack,
    fun _ => byte_softReset_code⟩

end Sys2Proof.Machine

/-! # A status other than Ok (10_state.md R32; 40_engine.md R101; 60_exceptions.md R233) -/

namespace Sys2Proof.Machine

variable {s : State}

theorem step_of_not_ok (h : s.status ≠ .ok) : step s = .next s := if_neg h

theorem stepResult_of_not_ok (h : s.status ≠ .ok) : stepResult s = some .fail := if_neg h

theorem stepCall_of_not_ok (h : s.status ≠ .ok) : stepCall s = (.stepped .fail, s.idle) := by
  simp only [stepCall, step_of_not_ok h, stepResult_of_not_ok h]

/-- RUN on an inert machine stops at its first step, and the machine is as it was (40_engine.md R110). -/
theorem runLoop_of_not_ok (h : s.status ≠ .ok) (n : Nat) (count : Int) : (runLoop n count s).2 = s.idle := by
  cases n with
  | zero => rfl
  | succ n => simp only [runLoop, step_of_not_ok h, stepResult_of_not_ok h]

/-- A command issued in a status other than Ok leaves the status, reset apart. -/
theorem issue_status_of_not_ok {c : Command} (h : s.status ≠ .ok) (hc : c ≠ .reset) :
    (issue c s).2.machine.status = s.status := by
  cases c with
  | reset => exact absurd rfl hc
  | step =>
    show (stepCall s).2.machine.status = _
    rw [stepCall_of_not_ok h]
    rfl
  | run budget =>
    show (runLoop budget.toNat 0 s).2.machine.status = _
    rw [runLoop_of_not_ok h]
    rfl
  | setRegister r v => exact setReg_status s r v
  | getMemory index =>
    simp only [issue]
    split <;> rfl
  | getRegister | getStackSize | getStatus | getPc | setPc => rfl

/-- Going on with a command in a status other than Ok leaves the status. -/
theorem resume_status_of_not_ok {c : Call} (h : s.status ≠ .ok) :
    (resume (s.busy c)).2.machine.status = s.status := by
  cases c with
  | step => rw [resume_step, stepCall_of_not_ok h, idle_machine]
  | run left count => rw [resume_run, runLoop_of_not_ok h, idle_machine]

/-- Settles O51: STEP and RUN, issued or gone on with, do nothing to an inert machine, and no other event but reset writes the
status. -/
theorem onlyResetLeavesAStatusOtherThanOk : Obligations.OnlyResetLeavesAStatusOtherThanOk := by
  intro e σ h he
  cases e with
  | command c =>
    have hc : c ≠ .reset := fun e => he (congrArg Event.command e)
    rcases session_cases σ with ⟨s, rfl⟩ | ⟨s, call, rfl⟩
    · exact issue_status_of_not_ok h hc
    · rfl
  | resume =>
    rcases session_cases σ with ⟨s, rfl⟩ | ⟨s, call, rfl⟩
    · rfl
    · exact resume_status_of_not_ok h
  | feed | endInput | drain => rfl

end Sys2Proof.Machine

/-! # The code/data region (20_memory.md R59, R70) -/

namespace Sys2Proof.Machine

variable {s t : State}

/-- Every word an effect on the stack writes stands in the stack region, so each byte below the region reads as before. -/
theorem StackEffect.byte_code (h : StackEffect s t) (hn : s.ssize ≤ s.cfg.stackCap) {a : Nat}
    (ha : a < 4 * (s.cfg.memSize - s.cfg.stackCap)) : Memory.byte t.mem a = Memory.byte s.mem a := by
  cases h with
  | same mem ssize => rw [mem]
  | pushed v room low high mem ssize =>
    rw [pushIndex_eq] at mem
    rw [mem, byte_setWord_ne (by omega)]
  | popped occupied low high mem ssize =>
    rw [topIndex_eq] at mem
    rw [mem, byte_setWord_ne (by omega)]
  | stored off v low high inLow inHigh mem ssize =>
    rw [topIndex_eq] at mem
    rw [mem, byte_setWord_ne (by omega)]

/-- Settles O56: a step is one of the four effects on the stack, none of which reaches below the stack region. -/
theorem codeRegionIsNeverWritten : Obligations.CodeRegionIsNeverWritten := by
  intro s t hs h
  obtain ⟨hc, heffect⟩ := step_effect h
  exact ⟨hc, fun _ => heffect.byte_code hs.ssizeLe⟩

end Sys2Proof.Machine

/-! # An operand word outside the memory (20_memory.md R60; 40_engine.md R100; 60_exceptions.md R224) -/

namespace Sys2Proof.Machine

variable {s : State}

theorem decode1_of_short {f : Word → Instr} {ops : List Word} (h : ops.length < 1) :
    decode1 f ops = .rejected .operandMissing := by
  match ops, h with
  | [], _ => rfl

theorem decode2_of_short {f : Word → Word → Instr} {ops : List Word} (h : ops.length < 2) :
    decode2 f ops = .rejected .operandMissing := by
  match ops, h with
  | [], _ => rfl
  | [_], _ => rfl

/-- A known opcode word before too few words is rejected for the operand that is missing. -/
theorem decode_of_short {i : Instr} {ops : List Word} (h : ops.length < i.operandCount) :
    decode (i.opcode :: ops) = .rejected .operandMissing := by
  cases i
  case nop | halt | ret => exact absurd h (Nat.not_lt_zero _)
  case movr | load | store | swap | cmp | call => exact decode2_of_short h
  all_goals exact decode1_of_short h

/-- The words fetched from inside the memory do not reach beyond its end (20_memory.md R50). -/
theorem length_wordsFrom_le (n : Nat) {i : Int} (hi : i ≤ s.cfg.memSize) :
    i + (s.wordsFrom n i).length ≤ s.cfg.memSize := by
  induction n generalizing i with
  | zero => simpa [State.wordsFrom] using hi
  | succ n ih =>
    rw [State.wordsFrom]
    cases hr : s.memRead i with
    | none => simpa using hi
    | some w =>
      obtain ⟨⟨_, hlt⟩, _⟩ := memRead_eq.mp hr
      have := ih (i := i + 1) (by omega)
      simp only [List.length_cons]
      omega

/-- The operand fetch fails where the last operand word would stand at or beyond MEM_SIZE. -/
theorem fetch_of_operand_outside {i : Instr} (h0 : 0 ≤ s.pc.toInt) (h1 : s.pc.toInt ≤ endOfStack s.cfg)
    (hop : s.memRead s.pc.toInt = some i.opcode) (hout : (s.cfg.memSize : Int) ≤ s.pc.toInt + i.operandCount) :
    fetch s = .raises .invalidAddress := by
  obtain ⟨⟨_, hlt⟩, _⟩ := memRead_eq.mp hop
  have hwords : s.wordsFrom 3 s.pc.toInt = i.opcode :: s.wordsFrom 2 (s.pc.toInt + 1) := by
    rw [State.wordsFrom, hop]
  have hshort : (s.wordsFrom 2 (s.pc.toInt + 1)).length < i.operandCount := by
    have := length_wordsFrom_le (s := s) 2 (i := s.pc.toInt + 1) (by omega)
    omega
  rw [fetch, if_pos (pcInRange_of h0 h1), hwords, decode_of_short hshort]

/-- What the engine's own checks raise sets the status and nothing else, and STEP returns FAIL (40_engine.md R106). -/
theorem step_of_fetch_raises {e : ErrorKind} (hs : s.status = .ok) (hf : fetch s = .raises e) :
    step s = .next { s with status := e.status } ∧ stepResult s = some .fail := by
  constructor
  · rw [step, if_pos hs, hf]
    rfl
  · rw [stepResult, if_pos hs, hf]

/-- Settles O9: the fetch raises before the instruction is reached. -/
theorem operandOutsideMemoryRaisesInvalidAddress : Obligations.OperandOutsideMemoryRaisesInvalidAddress :=
  fun _ _ hs h0 h1 hop hout => step_of_fetch_raises hs (fetch_of_operand_outside h0 h1 hop hout)

end Sys2Proof.Machine

/-! # Every step answers a next state (20_memory.md R59; 60_exceptions.md R220) -/

namespace Sys2Proof.Machine

variable {s : State}

theorem withReg_answers {k : Nat} {w : Word} {go : Reg → State → Result}
    (hgo : ∀ q, ∃ t, go q (s.skipOperands k) = .next t) : ∃ t, withReg k w s go = .next t := by
  rcases withReg_cases k w s go with ⟨q, _, e⟩ | ⟨_, e⟩
  · rw [e]
    exact hgo q
  · exact ⟨_, e⟩

theorem withRegs_answers {w1 w2 : Word} {go : Reg → Reg → State → Result}
    (hgo : ∀ q1 q2, ∃ t, go q1 q2 (s.skipOperands 2) = .next t) : ∃ t, withRegs w1 w2 s go = .next t := by
  rcases withRegs_cases w1 w2 s go with ⟨q1, q2, _, _, e⟩ | ⟨_, e⟩
  · rw [e]
    exact hgo q1 q2
  · exact ⟨_, e⟩

/-- A push finds its slot inside the memory, or the stack full. -/
theorem resolve_push_answers {v : Word} {go : State → Result} (hle : s.ssize ≤ s.cfg.stackCap)
    (hcap : s.cfg.stackCap ≤ s.cfg.memSize) (hgo : ∀ u, ∃ t, go u = .next t) :
    ∃ t, (s.push v).resolve s go = .next t := by
  rcases Nat.lt_or_eq_of_le hle with hroom | hfull
  · rw [push_eq hroom hcap]
    exact hgo _
  · exact ⟨_, resolve_push_of_full hfull⟩

/-- A pop finds the top inside the memory, or the stack empty. -/
theorem resolve_pop_answers {go : Word × State → Result} (hle : s.ssize ≤ s.cfg.memSize)
    (hgo : ∀ p, ∃ t, go p = .next t) : ∃ t, s.pop.resolve s go = .next t := by
  rcases Nat.eq_zero_or_pos s.ssize with hempty | hoccupied
  · exact ⟨_, resolve_pop_of_empty hempty⟩
  · rw [pop_eq hoccupied hle]
    exact hgo _

/-- A slot that is occupied is inside the memory; no other slot is given. -/
theorem resolve_slot_answers {off : Int} {go : Int → Result} (hle : s.ssize ≤ s.cfg.memSize)
    (hgo : ∀ i, 0 ≤ i → i < (s.cfg.memSize : Int) → ∃ t, go i = .next t) :
    ∃ t, (s.slot off).resolve s go = .next t := by
  cases hslot : s.slot off with
  | done i =>
    obtain ⟨hlow, hhigh, rfl⟩ := slot_done.mp hslot
    rw [topIndex_eq]
    exact hgo _ (by omega) (by omega)
  | raises e => exact ⟨_, rfl⟩
  | outside => exact absurd hslot slot_never_outside

theorem branch_answers (b : Bool) (a : Word) (s : State) : ∃ t, branch b a s = .next t := ⟨_, branch_eq b a s⟩

/-- With the counter within the capacity and the stack region within the memory, every instruction answers a next state:
only the stack's accesses could leave the memory, and no instruction is refused. -/
theorem exec_answers (hle : s.ssize ≤ s.cfg.stackCap) (hcap : s.cfg.stackCap ≤ s.cfg.memSize) (i : Instr) :
    ∃ t, exec i s = .next t := by
  have hmem : s.ssize ≤ s.cfg.memSize := hle.trans hcap
  cases i <;> simp only [exec]
  case nop | halt => exact ⟨_, rfl⟩
  case add | sub | mul | inc | dec | movr | out =>
    simp only [execAdd, execSub, execMul, execInc, execDec, execMovr, execOut]
    exact withReg_answers fun _ => ⟨_, rfl⟩
  case div | put =>
    simp only [execDiv, execPut]
    refine withReg_answers fun q => ?_
    split
    · exact ⟨_, rfl⟩
    · exact ⟨_, rfl⟩
  case inp | get =>
    simp only [execInp, execGet]
    refine withReg_answers fun q => ?_
    split
    · exact ⟨_, rfl⟩
    · exact ⟨_, rfl⟩
    · exact ⟨_, rfl⟩
  case swap | cmp =>
    simp only [execSwap, execCmp]
    exact withRegs_answers fun _ _ => ⟨_, rfl⟩
  case loop | jmp | jz | jnz | jgt =>
    simp only [execLoop, execJmp, execJz, execJnz, execJgt]
    exact branch_answers ..
  case push =>
    simp only [execPush]
    exact withReg_answers fun _ => resolve_push_answers (s := s.skipOperands 1) hle hcap fun _ => ⟨_, rfl⟩
  case call => exact resolve_push_answers (s := s.skipOperands 2) hle hcap fun _ => ⟨_, rfl⟩
  case pop =>
    simp only [execPop]
    exact withReg_answers fun _ => resolve_pop_answers (s := s.skipOperands 1) hmem fun _ => ⟨_, rfl⟩
  case ret => exact resolve_pop_answers hmem fun _ => ⟨_, rfl⟩
  case load =>
    simp only [execLoad]
    refine withReg_answers fun q => resolve_slot_answers (s := s.skipOperands 2) hmem fun i h0 h1 => ?_
    rw [memRead_isSome h0 h1]
    exact ⟨_, rfl⟩
  case store =>
    simp only [execStore]
    refine withReg_answers fun q => resolve_slot_answers (s := s.skipOperands 2) hmem fun i h0 h1 => ?_
    rw [memWrite_eq.mpr ⟨⟨h0, h1⟩, rfl⟩]
    exact ⟨_, rfl⟩

/-- Settles O55: an inert machine and a check of the engine answer at once, and so does every instruction. -/
theorem stepAlwaysAnswersANextState : Obligations.StepAlwaysAnswersANextState := by
  intro s hs
  by_cases hok : s.status = .ok
  · cases hf : fetch s with
    | raises e => exact ⟨_, (step_of_fetch_raises hok hf).1⟩
    | instr i =>
      rw [step, if_pos hok, hf]
      exact exec_answers hs.ssizeLe (Config.valid_iff.mp hs.cfgValid).1 i
  · exact ⟨s, step_of_not_ok hok⟩

end Sys2Proof.Machine

/-! # Bytes and words of the image (30_encoding.md R91; 70_reset_and_hazards.md R258, R259) -/

namespace Sys2Proof.Machine

theorem wholeWords_bytesOfWord_append (w : Word) (bs : List Byte) :
    wholeWords (bytesOfWord w ++ bs) = w :: wholeWords bs :=
  congrArg (· :: wholeWords bs) (wordOfBytes_wordByte w)

/-- Words laid out as bytes are read back whole, whatever bytes follow. -/
theorem wholeWords_flatMap_bytesOfWord_append (ws : List Word) (bs : List Byte) :
    wholeWords (ws.flatMap bytesOfWord ++ bs) = ws ++ wholeWords bs := by
  induction ws with
  | nil => rfl
  | cons w ws ih =>
    rw [List.flatMap_cons, List.append_assoc, wholeWords_bytesOfWord_append, ih, List.cons_append]

theorem length_flatMap_bytesOfWord (ws : List Word) : (ws.flatMap bytesOfWord).length = 4 * ws.length := by
  induction ws with
  | nil => rfl
  | cons w ws ih =>
    rw [List.flatMap_cons, List.length_append, ih, List.length_cons, bytesOfWord]
    simp only [List.length_cons, List.length_nil]
    omega

theorem extractLsb'_append_low {n : Nat} (x : BitVec n) (b : Byte) : (x ++ b).extractLsb' 0 8 = b := by
  rw [BitVec.extractLsb'_append_eq_of_add_le (by omega), BitVec.extractLsb'_eq_self]

theorem extractLsb'_append_above {n : Nat} (x : BitVec n) (b : Byte) (k : Nat) :
    (x ++ b).extractLsb' (k + 8) 8 = x.extractLsb' k 8 := by
  rw [BitVec.extractLsb'_append_eq_of_le (by omega), Nat.add_sub_cancel]

/-- Four bytes are those of the word they make: each byte passed over lowers the place to read at by eight bits. -/
theorem bytesOfWord_wordOfBytes (b0 b1 b2 b3 : Byte) : bytesOfWord (wordOfBytes b0 b1 b2 b3) = [b0, b1, b2, b3] := by
  have h0 : wordByte (wordOfBytes b0 b1 b2 b3) 0 = b0 := extractLsb'_append_low ..
  have h1 : wordByte (wordOfBytes b0 b1 b2 b3) 1 = b1 :=
    (extractLsb'_append_above _ _ 0).trans (extractLsb'_append_low ..)
  have h2 : wordByte (wordOfBytes b0 b1 b2 b3) 2 = b2 :=
    (extractLsb'_append_above _ _ 8).trans <| (extractLsb'_append_above _ _ 0).trans (extractLsb'_append_low ..)
  have h3 : wordByte (wordOfBytes b0 b1 b2 b3) 3 = b3 :=
    (extractLsb'_append_above _ _ 16).trans <| (extractLsb'_append_above _ _ 8).trans <|
      (extractLsb'_append_above _ _ 0).trans BitVec.extractLsb'_eq_self
  rw [bytesOfWord, h0, h1, h2, h3]

theorem getElem?_bytesOfWord {w : Word} {j : Nat} (hj : j < 4) : (bytesOfWord w)[j]? = some (wordByte w j) := by
  match j, hj with
  | 0, _ | 1, _ | 2, _ | 3, _ => rfl

theorem length_wholeWords : ∀ bs : List Byte, (wholeWords bs).length = bs.length / 4
  | [] | [_] | [_, _] | [_, _, _] => by simp [wholeWords]
  | b0 :: b1 :: b2 :: b3 :: bs => by
    rw [wholeWords, List.length_cons, length_wholeWords]
    simp only [List.length_cons]
    omega

/-- Each byte of each word assembled stands in the image, the least significant first. -/
theorem getElem?_of_wholeWords {bs : List Byte} {i j : Nat} {w : Word} (hw : (wholeWords bs)[i]? = some w) (hj : j < 4) :
    bs[4 * i + j]? = some (wordByte w j) := by
  induction bs using wholeWords.induct generalizing i with
  | case1 b0 b1 b2 b3 bs ih =>
    rw [wholeWords] at hw
    cases i with
    | zero =>
      obtain rfl : wordOfBytes b0 b1 b2 b3 = w := Option.some.inj hw
      rw [← getElem?_bytesOfWord hj, bytesOfWord_wordOfBytes, Nat.mul_zero, Nat.zero_add]
      exact List.getElem?_append_left (l₁ := [b0, b1, b2, b3]) hj
    | succ i =>
      rw [show 4 * (i + 1) + j = 4 * i + j + 4 by omega]
      exact ih hw
  | case2 bs hshort =>
    rw [wholeWords] at hw
    · cases hw
    · exact hshort

/-- Settles O48: four bytes make a word, and each is still to be read in it. -/
theorem loaderAssemblesLittleEndianWords : Obligations.LoaderAssemblesLittleEndianWords := by
  refine fun bs => ⟨fun h => if_neg h, fun h => ⟨wholeWords bs, if_pos h, ?_, fun i j hj hi => ?_⟩⟩
  · rw [length_wholeWords]
    omega
  · have hw := List.getElem?_eq_getElem hi
    exact ⟨_, _, hw, getElem?_of_wholeWords hw hj, rfl⟩

end Sys2Proof.Machine

/-! # Decoding and encoding (30_encoding.md R80 to R86, R90) -/

namespace Sys2Proof.Machine

/-- The words of an instruction decode to it, and leave the words that follow. -/
theorem decode_encode_append (i : Instr) (rest : List Word) : decode (encode i ++ rest) = .instr i rest := by
  cases i <;> rfl

/-- Settles O2: the bytes are read as the instruction's words, these decode to it, and what is left is what follows them. -/
theorem decodeOfEncodedBytesGivesInstruction : Obligations.DecodeOfEncodedBytesGivesInstruction := by
  intro i rest
  rw [decodeBytes, encodeBytes, wholeWords_flatMap_bytesOfWord_append, decode_encode_append]
  exact congrArg (Decoded.instr i) (List.drop_left' (length_flatMap_bytesOfWord _))

/-- What the dispatch table can answer for an opcode word `w` before the words `ops`: it decodes by one of the formats of
30_encoding.md R81, with a constructor whose opcode is `w`, or the word is above 25 and rejected (R90). -/
inductive Dispatched (w : Word) (ops : List Word) (d : Decoded Word) : Prop where
  | format0 (i : Instr) (answer : d = decode0 i ops) (opcode : i.opcode = w) (operands : i.operands = [])
  | format1 (f : Word → Instr) (answer : d = decode1 f ops) (opcode : ∀ a, (f a).opcode = w)
      (operands : ∀ a, (f a).operands = [a])
  | format2 (f : Word → Word → Instr) (answer : d = decode2 f ops) (opcode : ∀ a b, (f a b).opcode = w)
      (operands : ∀ a b, (f a b).operands = [a, b])
  | illegal (answer : d = .rejected (.illegalOpcode w)) (above : 25 < w.toNat)

/-- Each of the 26 arms of the table is of one of the three formats; the last arm is for the words above 25. -/
theorem dispatched_decode (w : Word) (ops : List Word) : Dispatched w ops (decode (w :: ops)) := by
  rw [decode]
  split
  case h_1 hw | h_2 hw | h_26 hw => exact .format0 _ rfl (BitVec.eq_of_toNat_eq hw.symm) rfl
  case h_10 hw | h_11 hw | h_12 hw | h_17 hw | h_20 hw | h_25 hw =>
    exact .format2 _ rfl (fun _ _ => BitVec.eq_of_toNat_eq hw.symm) (fun _ _ => rfl)
  case h_27 =>
    simp only [imp_false] at *
    exact .illegal rfl (by omega)
  all_goals
    rename_i hw
    exact .format1 _ rfl (fun _ => BitVec.eq_of_toNat_eq hw.symm) (fun _ => rfl)

variable {w : Word} {ops rest : List Word} {i : Instr}

/-- Where the answer is an instruction, the words read are its encoding. -/
theorem Dispatched.eq_encode (h : Dispatched w ops (.instr i rest)) : w :: ops = encode i ++ rest := by
  cases h with
  | format0 j answer opcode operands =>
    cases answer
    rw [encode, opcode, operands]
    rfl
  | format1 f answer opcode operands =>
    match ops, answer with
    | a :: _, answer =>
      cases answer
      rw [encode, opcode, operands]
      rfl
  | format2 f answer opcode operands =>
    match ops, answer with
    | a :: b :: _, answer =>
      cases answer
      rw [encode, opcode, operands]
      rfl
  | illegal answer above => cases answer

/-- Settles O3: there is a first word, and what the dispatch table answers for it is the inverse of the encoder. -/
theorem decodedWordsAreTheEncoding : Obligations.DecodedWordsAreTheEncoding := by
  intro ws rest i h
  cases ws with
  | nil => cases h
  | cons w ops => exact Dispatched.eq_encode (h ▸ dispatched_decode w ops)

/-! ## The opcode words that are none -/

theorem opcode_toNat_le (i : Instr) : i.opcode.toNat ≤ 25 := by
  cases i <;> exact Nat.le_of_ble_eq_true rfl

theorem decode1_ne_illegal {f : Word → Instr} : decode1 f ops ≠ .rejected (.illegalOpcode w) := by
  cases ops <;> nofun

theorem decode2_ne_illegal {f : Word → Word → Instr} : decode2 f ops ≠ .rejected (.illegalOpcode w) := by
  unfold decode2
  split <;> nofun

theorem decode_eq_illegal_iff : decode (w :: ops) = .rejected (.illegalOpcode w) ↔ 25 < w.toNat := by
  have legal {i : Instr} (opcode : i.opcode = w) : ¬ 25 < w.toNat := opcode ▸ Nat.not_lt.mpr (opcode_toNat_le i)
  cases dispatched_decode w ops with
  | format0 i answer opcode _ => exact iff_of_false (answer ▸ nofun) (legal opcode)
  | format1 f answer opcode _ => exact iff_of_false (answer ▸ decode1_ne_illegal) (legal (opcode 0))
  | format2 f answer opcode _ => exact iff_of_false (answer ▸ decode2_ne_illegal) (legal (opcode 0 0))
  | illegal answer above => exact iff_of_true answer above

/-- As a signed number a word above 25 is negative or above 25 (00_scope.md R10). -/
theorem lt_toNat_iff : 25 < w.toNat ↔ w.toInt < 0 ∨ 25 < w.toInt := by
  have := w.isLt
  rw [BitVec.toInt_eq_toNat_cond]
  split <;> omega

/-- Settles O4: the words the dispatch table rejects are those above 25 without a sign. -/
theorem illegalOpcodesAreThoseOutsideZeroTo25 : Obligations.IllegalOpcodesAreThoseOutsideZeroTo25 :=
  fun _ _ => decode_eq_illegal_iff.trans lt_toNat_iff

/-- Settles O1: the words are encodings or above 25, and the bytes are those of an encoding. -/
theorem opcodeWordsDecodeToTheirInstructions : Obligations.OpcodeWordsDecodeToTheirInstructions :=
  ⟨decode_encode_append .nop [], decode_encode_append .halt [], decode_encode_append (.add 1) [],
    decode_encode_append (.cmp 1 2) [], decode_encode_append (.swap 0 4) [],
    decode_encode_append (.store 2 0xFFFFFFFF) [], decode_encode_append (.call 7 6) [], decode_encode_append .ret [],
    decode_encode_append (.inp 0) [], decode_eq_illegal_iff.mpr (by decide), decode_eq_illegal_iff.mpr (by decide),
    decodeOfEncodedBytesGivesInstruction (.movr 0 5) []⟩

end Sys2Proof.Machine

/-! # A register operand that names none (30_encoding.md R85; 40_engine.md R104, R106) -/

namespace Sys2Proof.Machine

variable {s : State} {w : Word} {i : Instr}

/-- The twelve instructions of format FR test their operand before anything else. -/
theorem exec_of_hasFormFR (hi : HasFormFR i w) (hw : NamesNone w) :
    exec i s = .next (raisedState .illegalOperand 1 s) := by
  simp only [HasFormFR, List.mem_cons, List.not_mem_nil, or_false] at hi
  rcases hi with rfl | rfl | rfl | rfl | rfl | rfl | rfl | rfl | rfl | rfl | rfl | rfl
  all_goals
    rw [exec]
    exact withReg_none hw

/-- Settles O10: all 17 are `withReg` or `withRegs`, which raise on a word that names no register. -/
theorem illegalRegisterOperandRaises : Obligations.IllegalRegisterOperandRaises := by
  refine fun s w hw => ⟨fun i hi => exec_of_hasFormFR hi hw, fun n => ?_, fun u => ?_⟩
  · simp only [exec]
    exact ⟨withReg_none hw, withReg_none hw, withReg_none hw⟩
  · simp only [exec]
    exact ⟨withRegs_none (.inl hw), withRegs_none (.inr hw), withRegs_none (.inl hw), withRegs_none (.inr hw)⟩

end Sys2Proof.Machine

/-! # What a step does before its instruction (40_engine.md R100 to R103) -/

namespace Sys2Proof.Machine

variable {s t : State} {i : Instr}

/-- Settles O5: both are decided by the status alone. -/
theorem stepRefusedUnlessStatusOk : Obligations.StepRefusedUnlessStatusOk :=
  fun _ h => ⟨step_of_not_ok h, stepResult_of_not_ok h⟩

theorem step_of_fetch_instr (hs : s.status = .ok) (hf : fetch s = .instr i) : step s = exec i s := by
  rw [step, if_pos hs, hf]

/-- The result of a STEP that does not wait is read off the status it leaves (80_host_interface.md R284). -/
theorem stepResult_of_exec (hs : s.status = .ok) (hf : fetch s = .instr i) (hw : waitsForInput i s = false)
    (he : exec i s = .next t) :
    stepResult s = if t.status = .ok ∨ t.status = .halted then some .success else some .fail := by
  simp only [stepResult, if_pos hs, hf, hw, he, Bool.false_eq_true, if_false]

/-- The words of an instruction at a `pc` in range are fetched as that instruction. -/
theorem fetch_of_encode (h0 : 0 ≤ s.pc.toInt) (h1 : s.pc.toInt ≤ endOfStack s.cfg)
    (hwords : ∀ (j : Nat) (w : Word), (encode i)[j]? = some w → s.memRead (s.pc.toInt + j) = some w) :
    fetch s = .instr i := by
  have hlength : (encode i).length ≤ 3 := by
    cases i <;> exact Nat.le_of_ble_eq_true rfl
  obtain ⟨rest, hfetched⟩ := wordsFrom_prefix _ _ 3 hlength hwords
  rw [fetch, if_pos (pcInRange_of h0 h1), hfetched, decode_encode_append]

/-- Settles O8: the fetch finds the instruction, and STEP runs what the fetch finds. -/
theorem stepRunsTheDecodedInstruction : Obligations.StepRunsTheDecodedInstruction :=
  fun _ _ hs h0 h1 hwords => step_of_fetch_instr hs (fetch_of_encode h0 h1 hwords)

/-! ## What the engine itself raises -/

theorem fetch_of_pc_outside (h : s.pc.toInt < 0 ∨ endOfStack s.cfg < s.pc.toInt) :
    fetch s = .raises .invalidAddress := by
  have hrange : pcInRange s.cfg s.pc = false := by
    simp only [pcInRange, Bool.and_eq_false_iff, decide_eq_false_iff_not, Int.not_le]
    exact h
  rw [fetch, hrange]
  rfl

theorem fetch_of_illegal_opcode {w : Word} (h0 : 0 ≤ s.pc.toInt) (h1 : s.pc.toInt ≤ endOfStack s.cfg)
    (hop : s.memRead s.pc.toInt = some w) (hw : w.toInt < 0 ∨ 25 < w.toInt) :
    fetch s = .raises .illegalInstruction := by
  have hwords : s.wordsFrom 3 s.pc.toInt = w :: s.wordsFrom 2 (s.pc.toInt + 1) := by
    rw [State.wordsFrom, hop]
  rw [fetch, if_pos (pcInRange_of h0 h1), hwords, decode_eq_illegal_iff.mpr (lt_toNat_iff.mpr hw)]

/-- Settles O7: the decoder rejects the word, and what the fetch raises sets the status and nothing else. -/
theorem unknownOpcodeRaisesIllegalInstruction : Obligations.UnknownOpcodeRaisesIllegalInstruction :=
  fun _ _ hs h0 h1 hop hw => step_of_fetch_raises hs (fetch_of_illegal_opcode h0 h1 hop hw)

/-- The zero word at `pc` is fetched as NOP (41_system.md R120). -/
theorem fetch_of_zero (h0 : 0 ≤ s.pc.toInt) (h1 : s.pc.toInt ≤ endOfStack s.cfg)
    (hop : s.memRead s.pc.toInt = some 0) : fetch s = .instr .nop := by
  refine fetch_of_encode h0 h1 fun j w hj => ?_
  match j, hj with
  | 0, rfl =>
    show s.memRead (s.pc.toInt + 0) = some 0
    rw [Int.add_zero, hop]

/-- A STEP at a zero word only advances `pc`. -/
theorem step_of_zero (hs : s.status = .ok) (h0 : 0 ≤ s.pc.toInt) (h1 : s.pc.toInt ≤ endOfStack s.cfg)
    (hop : s.memRead s.pc.toInt = some 0) :
    step s = .next { s with pc := s.pc + 1 } ∧ stepResult s = some .success := by
  have hf := fetch_of_zero h0 h1 hop
  have he : exec .nop s = .next { s with pc := s.pc + 1 } := by
    rw [exec, execNop, succeed_eq, ← hs]
  refine ⟨(step_of_fetch_instr hs hf).trans he, ?_⟩
  rw [stepResult_of_exec hs hf rfl he, if_pos (.inl hs)]

/-- Settles O6: the bound check raises on both sides of the code region, always where that is empty, and lets `EOS`
pass. -/
theorem pcOutsideCodeRegionRaisesInvalidAddress : Obligations.PcOutsideCodeRegionRaisesInvalidAddress := by
  refine fun s hs => ⟨fun hout => ?_, fun hempty => ?_, fun h0 heos hop => ?_⟩
  · exact step_of_fetch_raises hs (fetch_of_pc_outside hout)
  · have hout : s.pc.toInt < 0 ∨ endOfStack s.cfg < s.pc.toInt := by
      rw [endOfStack, hempty]
      omega
    exact step_of_fetch_raises hs (fetch_of_pc_outside hout)
  · exact step_of_zero hs h0 heos.le hop

end Sys2Proof.Machine

/-! # RUN (40_engine.md R110 to R113) -/

namespace Sys2Proof.Machine

variable {s t : State}

theorem errorKind_status_ne (e : ErrorKind) : e.status ≠ .ok ∧ e.status ≠ .halted := by
  cases e <;> decide

/-- A STEP from Ok that returns answers SUCCESS where it leaves Ok or Halted, FAIL where it leaves an error status. -/
theorem stepResult_eq_success_iff {r : StepResult} (hs : s.status = .ok) (h : step s = .next t)
    (hr : stepResult s = some r) : r = .success ↔ t.status = .ok ∨ t.status = .halted := by
  cases hf : fetch s with
  | raises e =>
    obtain ⟨hstep, hfail⟩ := step_of_fetch_raises hs hf
    obtain rfl := Host.Outcome.next.inj (hstep.symm.trans h)
    obtain rfl := Option.some.inj (hfail.symm.trans hr)
    simpa using errorKind_status_ne e
  | instr i =>
    cases hw : waitsForInput i s with
    | true => simp [(stepResult_of_blocked hs hf hw).2] at hr
    | false =>
      have he : exec i s = .next t := (step_of_fetch_instr hs hf).symm.trans h
      rw [stepResult_of_exec hs hf hw he] at hr
      split at hr
      next hgood => exact iff_of_true (Option.some.inj hr).symm hgood
      next hbad => exact iff_of_false (fun hsucc => by simp [hsucc] at hr) hbad

theorem core_run_succ (m : Nat) (h : step s = .next t) :
    Host.Core.run core (m + 1) s = Host.Core.run core m t := by
  have hcore : core.step s = .next t := h
  simp only [Host.Core.run, hcore]

/-- How a RUN with `n` steps left and `k` made can return when the status is Ok: `m` steps later, with the count `c`,
in the state `t`. -/
inductive RunEnd (n m : Nat) (k c : Int) (t : State) : Prop where
  | spent (steps : m = n) (count : c = k + m) (status : t.status = .ok)
  | halted (steps : 0 < m) (count : c = k + m) (status : t.status = .halted)
  | failed (steps : 0 < m) (count : c = -(k + m)) (status : t.status ≠ .ok ∧ t.status ≠ .halted)

/-- A step made before is one more of both. -/
theorem RunEnd.succ {n m : Nat} {k c : Int} (h : RunEnd n m (k + 1) c t) : RunEnd (n + 1) (m + 1) k c t := by
  cases h with
  | spent steps count status => exact .spent (by omega) (by omega) status
  | halted steps count status => exact .halted (by omega) (by omega) status
  | failed steps count status => exact .failed (by omega) (by omega) status

/-- RUN's loop, by the rounds it makes: each is a step from Ok, and only one that leaves Ok is followed by another. -/
theorem runLoop_returns {n : Nat} {k c : Int} (hs : s.status = .ok) (h : runLoop n k s = (.count c, t.idle)) :
    ∃ m, m ≤ n ∧ Host.Core.run core m s = .next t ∧ RunEnd n m k c t := by
  induction n generalizing k s with
  | zero =>
    obtain ⟨rfl, rfl⟩ : k = c ∧ s = t := by simpa [runLoop] using h
    exact ⟨0, le_rfl, rfl, .spent rfl (by simp) hs⟩
  | succ n ih =>
    rcases runLoop_succ_cases n k s with ⟨_, _, e⟩ | ⟨u, hstep, hr, e⟩ | ⟨u, hstep, _, hhalted, e⟩ |
      ⟨u, hstep, hr, hgoes, e⟩ | ⟨_, e⟩
    · cases e.symm.trans h
    · obtain ⟨rfl, rfl⟩ : -(k + 1) = c ∧ u = t := by simpa using e.symm.trans h
      have hbad : u.status ≠ .ok ∧ u.status ≠ .halted := by
        simpa using stepResult_eq_success_iff hs hstep hr
      exact ⟨1, Nat.succ_pos n, core_run_succ 0 hstep, .failed one_pos rfl hbad⟩
    · obtain ⟨rfl, rfl⟩ : k + 1 = c ∧ u = t := by simpa using e.symm.trans h
      exact ⟨1, Nat.succ_pos n, core_run_succ 0 hstep, .halted one_pos rfl hhalted⟩
    · have hok : u.status = .ok := ((stepResult_eq_success_iff hs hstep hr).mp rfl).resolve_right hgoes
      obtain ⟨m, hm, hrun, hend⟩ := ih hok (e.symm.trans h)
      exact ⟨m + 1, Nat.succ_le_succ hm, (core_run_succ m hstep).trans hrun, hend.succ⟩
    · cases e.symm.trans h

theorem run_of_nonpos {b : Int} (hb : b ≤ 0) : run b s = (.count 0, s.idle) := by
  rw [run, Int.toNat_of_nonpos hb]
  rfl

/-- On an inert machine the first step fails (D20). -/
theorem run_of_not_ok {b : Int} (hs : s.status ≠ .ok) (hb : 1 ≤ b) : run b s = (.count (-1), s.idle) := by
  obtain ⟨n, hn⟩ : ∃ n, b.toNat = n + 1 := ⟨b.toNat - 1, by omega⟩
  simp only [run, hn, runLoop, step_of_not_ok hs, stepResult_of_not_ok hs, Int.zero_add]

/-- What a RUN that returns has done: nothing without a budget, one refused step on an inert machine, else the rounds of
its loop. -/
theorem run_returns {b c : Int} (h : run b s = (.count c, t.idle)) :
    (b ≤ 0 ∧ c = 0 ∧ t = s) ∨
    (1 ≤ b ∧ s.status ≠ .ok ∧ c = -1 ∧ t = s) ∨
    (1 ≤ b ∧ ∃ m, m ≤ b.toNat ∧ Host.Core.run core m s = .next t ∧ RunEnd b.toNat m 0 c t) := by
  rcases lt_or_ge 0 b with hb | hb
  · by_cases hs : s.status = .ok
    · exact .inr (.inr ⟨hb, runLoop_returns hs h⟩)
    · obtain ⟨rfl, rfl⟩ : -1 = c ∧ s = t := by simpa using (run_of_not_ok hs hb).symm.trans h
      exact .inr (.inl ⟨hb, hs, rfl, rfl⟩)
  · obtain ⟨rfl, rfl⟩ : 0 = c ∧ s = t := by simpa using (run_of_nonpos hb).symm.trans h
    exact .inl ⟨hb, rfl, rfl⟩

/-- Settles O12: the sign of the count tells apart the ways RUN's loop can end. -/
theorem runResultSaysHowItStopped : Obligations.RunResultSaysHowItStopped := by
  refine ⟨fun b c s t h => ?_, fun b s => run_of_not_ok, fun b s => run_of_nonpos⟩
  rcases run_returns h with ⟨hb, hc, ht⟩ | ⟨hb, hs, rfl, rfl⟩ | ⟨hb, m, hm, _, hend⟩
  · exact .inl ⟨hc, hb, ht⟩
  · exact .inr (.inr ⟨by omega, by omega, hs, fun _ => ⟨rfl, rfl⟩⟩)
  · cases hend with
    | spent steps count status => exact .inr (.inl ⟨by omega, by omega, .inr ⟨by omega, status⟩⟩)
    | halted steps count status => exact .inr (.inl ⟨by omega, by omega, .inl status⟩)
    | failed steps count status =>
      exact .inr (.inr ⟨by omega, by omega, status.1, fun hh => absurd hh status.2⟩)

/-- Settles O13: the count of a RUN that returns is, up to its sign, the number of rounds its loop made. -/
theorem runIsIteratedStep : Obligations.RunIsIteratedStep := by
  intro b c s t h
  rcases run_returns h with ⟨_, rfl, rfl⟩ | ⟨_, hs, rfl, rfl⟩ | ⟨_, m, _, hrun, hend⟩
  · rfl
  · exact core_run_succ 0 (step_of_not_ok hs)
  · have hcount : c.natAbs = m := by
      cases hend with
      | spent _ count _ | halted _ count _ | failed _ count _ => omega
    rw [hcount]
    exact hrun

end Sys2Proof.Machine

/-! # NOP and HALT (41_system.md R120, R121) -/

namespace Sys2Proof.Machine

theorem haltMachine_eq (s : State) : haltMachine s = .next { s with status := .halted, pc := s.pc + 1 } := rfl

theorem exec_nop (s : State) : exec .nop s = .next { s with pc := s.pc + 1, status := .ok } := by
  rw [exec, execNop, succeed_eq]

theorem exec_halt (s : State) : exec .halt s = .next { s with pc := s.pc + 1, status := .halted } := by
  rw [exec, execHalt, haltMachine_eq]

/-- Settles O15: NOP has no operand word, and it ends as any instruction that succeeds. -/
theorem nopOnlyAdvancesPc : Obligations.NopOnlyAdvancesPc :=
  ⟨rfl, exec_nop⟩

/-- Settles O16: Halted is not Ok, so the machine that HALT leaves is inert (R101). -/
theorem haltSetsHaltedAndStopsTheMachine : Obligations.HaltSetsHaltedAndStopsTheMachine := by
  refine ⟨rfl, fun s => ⟨_, exec_halt s, rfl, ?_⟩⟩
  have hinert : Status.halted ≠ .ok := by decide
  exact ⟨step_of_not_ok hinert, stepResult_of_not_ok hinert⟩

end Sys2Proof.Machine

/-! # Arithmetic (42_arithmetic.md R131 to R138) -/

namespace Sys2Proof.Machine

variable {s : State} {w : Word} {q : Reg}

/-- An accumulating handler whose function reduces the exact result `e` to a word (R131 to R134, R139). -/
theorem withReg_accumulate {f : Word → Word → Word} {e : Int} (hw : Names w q)
    (hf : f (s.getReg .A) (s.getReg q) = wrap32 e) :
    ∃ t, withReg 1 w s (accumulate f) = .next t ∧ WrapsTo e (t.getReg .A) ∧
      t.getReg .RES = t.getReg .A ∧ OnlyRegs [.A, .RES] s t ∧ Completed 1 s t := by
  obtain ⟨t, ht, hA, hrest⟩ := accumulate_spec s q f
  refine ⟨t, (withReg_names hw).trans ht, ?_, hrest⟩
  rw [hA, hf]
  exact wrapsTo_wrap32 e

/-- An adjusting handler whose function reduces the exact result `e` to a word (R135, R136, R139). -/
theorem withReg_adjust {f : Word → Word} {e : Int} (hw : Names w q) (hf : f (s.getReg q) = wrap32 e) :
    ∃ t, withReg 1 w s (adjust f) = .next t ∧ WrapsTo e (t.getReg q) ∧
      t.getReg .RES = t.getReg q ∧ OnlyRegs [q, .RES] s t ∧ Completed 1 s t := by
  obtain ⟨t, ht, hq, hrest⟩ := adjust_spec s q f
  refine ⟨t, (withReg_names hw).trans ht, ?_, hrest⟩
  rw [hq, hf]
  exact wrapsTo_wrap32 e

/-- Settles O17: the three accumulate, and each of their functions is the exact result, wrapped. -/
theorem addSubMulWriteAAndResult : Obligations.AddSubMulWriteAAndResult := by
  intro s w q hw
  simp only [exec, execAdd, execSub, execMul]
  exact ⟨withReg_accumulate hw rfl, withReg_accumulate hw rfl, withReg_accumulate hw rfl⟩

/-- The quotient rounded toward zero fits a word unless it is `INT_MIN / -1` (R138, D5). -/
theorem toInt_sdiv {a b : Word} (h : ¬ (a.toInt = intMin ∧ b.toInt = -1)) :
    (sdiv a b).toInt = Int.tdiv a.toInt b.toInt := by
  have hdiv : sdiv a b = BitVec.sdiv a b :=
    BitVec.eq_of_toInt_eq (by rw [sdiv, wrap32, BitVec.toInt_ofInt, BitVec.toInt_sdiv])
  have hne : a ≠ BitVec.intMin 32 ∨ b ≠ -1#32 := by
    rw [← not_and_or]
    rintro ⟨rfl, rfl⟩
    exact h (by decide)
  rw [hdiv, BitVec.toInt_sdiv_of_ne_or_ne a b hne]

/-- DIV by a register that is not zero accumulates the quotient (R134). -/
theorem exec_div_of_ne_zero (hw : Names w q) (hq : s.getReg q ≠ 0) :
    exec (.div w) s = accumulate sdiv q (s.skipOperands 1) := by
  rw [exec, execDiv, withReg_names hw, if_neg (by rwa [getReg_skipOperands])]

/-- DIV by a zero register raises after the operand word is skipped (R134). -/
theorem exec_div_of_zero (hw : Names w q) (hq : s.getReg q = 0) :
    exec (.div w) s = .next (raisedState .divisionByZero 1 s) := by
  rw [exec, execDiv, withReg_names hw, if_pos (by rwa [getReg_skipOperands]), raise_skipOperands]

/-- Settles O18: DIV accumulates the truncated quotient where there is a divisor, and raises where there is none. -/
theorem divTruncatesOrRaisesDivisionByZero : Obligations.DivTruncatesOrRaisesDivisionByZero := by
  refine fun s w q hw => ⟨fun hq => ?_, exec_div_of_zero hw⟩
  obtain ⟨t, ht, hA, hrest⟩ := accumulate_spec s q sdiv
  refine ⟨t, (exec_div_of_ne_zero hw hq).trans ht, ?_, ?_, hrest⟩
  · rw [hA]
    exact wrapsTo_wrap32 _
  · rw [hA]
    exact toInt_sdiv

/-- Settles O19: INC and DEC adjust, and each of their functions is the exact result, wrapped. -/
theorem incDecAdjustTheRegisterAndResult : Obligations.IncDecAdjustTheRegisterAndResult := by
  intro s w q hw
  simp only [exec, execInc, execDec]
  exact ⟨withReg_adjust hw rfl, withReg_adjust hw rfl⟩

/-- Wrapping does not hide a difference: two words whose difference is a multiple of 2^32 are the same word. -/
theorem aluSub_eq_zero_iff {a b : Word} : aluSub a b = 0 ↔ a = b := by
  have hsub : aluSub a b = a - b :=
    BitVec.eq_of_toInt_eq (by rw [aluSub, wrap32, BitVec.toInt_ofInt, BitVec.toInt_sub])
  rw [hsub, sub_eq_zero]

/-- A success that writes one register changes no other, whatever was skipped before it (40_engine.md R105). -/
theorem succeed_setReg_spec (s : State) (q : Reg) (v : Word) (k : Nat) :
    ∃ t, succeed ((s.skipOperands k).setReg q v) = .next t ∧ t.getReg q = v ∧ OnlyRegs [q] s t ∧ Completed k s t := by
  refine ⟨_, succeed_eq _, by simp, ?_, completed_succeed (by simp)⟩
  constructor
  case regs =>
    intro r hr
    have hne : r ≠ q := by simpa using hr
    simp [getReg_setReg, hne]
  case mem =>
    intro a
    simp
  all_goals simp

/-- Settles O20: CMP is a success that writes the wrapped difference to Result. -/
theorem cmpWritesOnlyTheResult : Obligations.CmpWritesOnlyTheResult := by
  intro s w1 w2 q1 q2 h1 h2
  obtain ⟨t, ht, hres, hframe⟩ := succeed_setReg_spec s .RES (aluSub (s.getReg q1) (s.getReg q2)) 2
  have hexec : exec (.cmp w1 w2) s = .next t := by
    rw [exec, execCmp, withRegs_names h1 h2, getReg_skipOperands, getReg_skipOperands, ht]
  refine ⟨t, hexec, ?_, ?_, hframe⟩
  · rw [hres]
    exact wrapsTo_wrap32 _
  · rw [hres]
    exact aluSub_eq_zero_iff

end Sys2Proof.Machine

/-! # Data move (43_data_move.md R150, R151) -/

namespace Sys2Proof.Machine

/-- Settles O22: MOVR is a success that writes its immediate, as it is, to the register its first operand names. -/
theorem movrWritesTheImmediate : Obligations.MovrWritesTheImmediate := by
  intro s w n q hw
  rw [exec, execMovr, withReg_names hw]
  exact succeed_setReg_spec s q n 2

/-- After an exchange the first register holds the old word of the second, which for a register exchanged with itself is
its own. -/
theorem getReg_exchange_left (s : State) (q1 q2 : Reg) :
    ((s.setReg q1 (s.getReg q2)).setReg q2 (s.getReg q1)).getReg q1 = s.getReg q2 := by
  by_cases heq : q1 = q2
  · rw [heq, getReg_setReg_same]
  · rw [getReg_setReg, if_neg heq, getReg_setReg_same]

/-- An exchange changes no register but its two. -/
theorem getReg_exchange_of_ne (s : State) {q1 q2 r : Reg} (h1 : r ≠ q1) (h2 : r ≠ q2) :
    ((s.setReg q1 (s.getReg q2)).setReg q2 (s.getReg q1)).getReg r = s.getReg r := by
  rw [getReg_setReg, if_neg h2, getReg_setReg, if_neg h1]

/-- Settles O23: the exchange is judged on the state after the operand words, whose registers are those of the start. -/
theorem swapExchangesTwoRegisters : Obligations.SwapExchangesTwoRegisters := by
  intro s w1 w2 q1 q2 h1 h2
  rw [exec, execSwap, withRegs_names h1 h2]
  refine ⟨_, succeed_eq _, ?_, ?_, ?_, completed_succeed (by simp)⟩
  · rw [getReg_mk, getReg_exchange_left, getReg_skipOperands]
  · rw [getReg_mk, getReg_setReg_same, getReg_skipOperands]
  · constructor
    case regs =>
      intro r hr
      obtain ⟨hne1, hne2⟩ : r ≠ q1 ∧ r ≠ q2 := by simpa using hr
      rw [getReg_mk, getReg_exchange_of_ne _ hne1 hne2, getReg_skipOperands]
    case mem =>
      intro a
      simp
    all_goals simp

end Sys2Proof.Machine

/-! # Stack (44_stack.md R160 to R164; 20_memory.md R54 to R58) -/

namespace Sys2Proof.Machine

variable {s t u : State} {m m' : Memory} {w n v : Word} {q : Reg} {i off : Int}

/-! ## A memory as its words -/

/-- Two canonical memories that agree on every word are the same list. -/
theorem eq_of_word_eq (hm : Memory.wf m = true) (hm' : Memory.wf m' = true)
    (h : ∀ j, Memory.word m j = Memory.word m' j) : m = m' :=
  eq_of_byte_eq hm hm' fun a => byte_eq_of_word_eq (h (a / 4)) (by omega) (by omega)

/-- Writing back a word's old value undoes a write to it. -/
theorem setWord_setWord_restore {k : Nat} (hm : Memory.wf m = true) :
    Memory.setWord (Memory.setWord m k v) k (Memory.word m k) = m := by
  refine eq_of_word_eq (wf_setWord (wf_setWord hm)) hm fun j => ?_
  by_cases hj : j = k
  · rw [hj, word_setWord_same (wf_setWord hm)]
  · rw [word_setWord_ne hj, word_setWord_ne hj]

/-! ## Frames of a store -/

/-- A state whose memory is that of `s` with one word written reads that word back. -/
theorem memRead_of_mem_setWord (hwf : Memory.wf s.mem = true) (h0 : 0 ≤ i) (h1 : i < (s.cfg.memSize : Int))
    (hcfg : t.cfg = s.cfg) (hmem : t.mem = Memory.setWord s.mem i.toNat v) : t.memRead i = some v := by
  rw [memRead_eq, hcfg, hmem]
  exact ⟨⟨h0, h1⟩, word_setWord_same hwf⟩

theorem OnlyRegs.refl (s : State) : OnlyRegs [] s s :=
  ⟨fun _ _ => rfl, fun _ => rfl, rfl, rfl, rfl, rfl⟩

theorem onlyRegs_setReg (s : State) (q : Reg) (v : Word) : OnlyRegs [q] s (s.setReg q v) where
  regs r hr := by rw [getReg_setReg, if_neg (by simpa using hr)]
  mem a := by rw [setReg_mem]
  ssize := setReg_ssize ..
  cfg := setReg_cfg ..
  input := setReg_input ..
  output := setReg_output ..

/-- Storing a word beside a change of registers, and moving the counter, `pc` and the status. -/
theorem OnlyRegs.onlyWord_setWord {but : List Reg} (h : OnlyRegs but s u) (h0 : 0 ≤ i) (k : Nat) (p : Word)
    (st : Status) :
    OnlyWord but i s { u with mem := Memory.setWord s.mem i.toNat v, ssize := k, pc := p, status := st } where
  regs r hr := (getReg_mk ..).trans (h.regs r hr)
  mem := sameMemBut_setWord (s := s) h0
  cfg := h.cfg
  input := h.input
  output := h.output

/-! ## The next state of each instruction -/

/-- A success, with `pc` counted from the start of the instruction (40_engine.md R105). -/
theorem succeed_of_pc {k : Nat} (hp : u.pc = s.pc + BitVec.ofNat 32 k) :
    succeed u = .next { u with pc := s.pc + BitVec.ofNat 32 (k + 1), status := .ok } := by
  rw [succeed_eq, hp, pc_skip_succ]

/-- PUSH with a free slot (R160). -/
theorem exec_push_of_room (hw : Names w q) (hroom : s.ssize < s.cfg.stackCap) (hcap : s.cfg.stackCap ≤ s.cfg.memSize) :
    exec (.push w) s = .next { s with
      mem := Memory.setWord s.mem s.pushIndex.toNat (s.getReg q), ssize := s.ssize + 1, pc := s.pc + 2, status := .ok } := by
  have hpush := push_eq (s := s.skipOperands 1) (v := s.getReg q) hroom hcap
  rw [exec, execPush, withReg_names hw, getReg_skipOperands, hpush]
  exact succeed_of_pc (s := s) (k := 1) rfl

/-- POP where `pop` is done (R161). -/
theorem exec_pop_of_done (hw : Names w q) (hpop : s.pop = .done (v, t)) :
    exec (.pop w) s = .next { t.setReg q v with pc := s.pc + 2, status := .ok } := by
  obtain ⟨hocc, hindex, hv, rfl⟩ := pop_done.mp hpop
  have hskip := pop_done (s := s.skipOperands 1).mpr ⟨hocc, hindex, hv, rfl⟩
  rw [exec, execPop, withReg_names hw, hskip]
  refine (succeed_of_pc (s := s) (k := 1) (setReg_pc ..)).trans ?_
  cases q <;> rfl

/-- POP with an occupied slot (R161). -/
theorem exec_pop_of_occupied (hw : Names w q) (hocc : 0 < s.ssize) (hle : s.ssize ≤ s.cfg.memSize) :
    exec (.pop w) s = .next { s.setReg q (Memory.word s.mem s.topIndex.toNat) with
      mem := Memory.setWord s.mem s.topIndex.toNat 0, ssize := s.ssize - 1, pc := s.pc + 2, status := .ok } := by
  rw [exec_pop_of_done hw (pop_eq hocc hle)]
  cases q <;> rfl

/-- An offset inside the stack names a word inside the memory (20_memory.md R57). -/
theorem topIndex_add_inside (h0 : 0 ≤ off) (h1 : off < s.ssize) (hle : s.ssize ≤ s.cfg.memSize) :
    0 ≤ s.topIndex + off ∧ s.topIndex + off < (s.cfg.memSize : Int) := by
  rw [topIndex_eq]
  omega

/-- LOAD with its offset inside the stack (R162, R164). -/
theorem exec_load_of_inside (hw : Names w q) (h0 : 0 ≤ s.stackOffset n) (h1 : s.stackOffset n < s.ssize)
    (hle : s.ssize ≤ s.cfg.memSize) :
    exec (.load w n) s =
      succeed ((s.skipOperands 2).setReg q (Memory.word s.mem (s.topIndex + s.stackOffset n).toNat)) := by
  obtain ⟨hlow, hhigh⟩ := topIndex_add_inside h0 h1 hle
  have hslot := slot_done (s := s.skipOperands 2).mpr ⟨h0, h1, rfl⟩
  have hread := memRead_isSome (s := s.skipOperands 2) hlow hhigh
  rw [exec, execLoad, withReg_names hw, stackOffset_skipOperands, hslot]
  simp only [Attempt.resolve, topIndex_skipOperands, hread, skipOperands_mem]

/-- STORE with its offset inside the stack (R163, R164). -/
theorem exec_store_of_inside (hw : Names w q) (h0 : 0 ≤ s.stackOffset n) (h1 : s.stackOffset n < s.ssize)
    (hle : s.ssize ≤ s.cfg.memSize) :
    exec (.store w n) s = .next { s with
      mem := Memory.setWord s.mem (s.topIndex + s.stackOffset n).toNat (s.getReg q), pc := s.pc + 3, status := .ok } := by
  have hslot := slot_done (s := s.skipOperands 2).mpr ⟨h0, h1, rfl⟩
  have hwrite : (s.skipOperands 2).memWrite (s.topIndex + s.stackOffset n) (s.getReg q) = some _ :=
    memWrite_eq.mpr ⟨topIndex_add_inside h0 h1 hle, rfl⟩
  rw [exec, execStore, withReg_names hw, stackOffset_skipOperands, hslot]
  simp only [Attempt.resolve, topIndex_skipOperands, getReg_skipOperands, hwrite]
  exact succeed_of_pc (s := s) (k := 2) rfl

/-! ## Each instruction with its frame -/

/-- Settles O24: the next state of PUSH is `s` with one word stored and the counter moved. -/
theorem pushStoresInTheNextSlot : Obligations.PushStoresInTheNextSlot := by
  intro s w q hw hroom hcap hwf
  obtain ⟨hlow, hhigh⟩ : 0 ≤ s.pushIndex ∧ s.pushIndex < (s.cfg.memSize : Int) := by
    rw [pushIndex_eq]
    omega
  exact ⟨_, exec_push_of_room hw hroom hcap, pushIndex_eq s, memRead_of_mem_setWord hwf hlow hhigh rfl rfl, rfl,
    (OnlyRegs.refl s).onlyWord_setWord hlow .., rfl, rfl⟩

/-- Settles O25: the next state of POP is `s` with one register set, one word zeroed and the counter moved. -/
theorem popTakesTheTopAndZeroesIt : Obligations.PopTakesTheTopAndZeroesIt := by
  intro s w q hw hocc hle hwf
  obtain ⟨hlow, hhigh⟩ : 0 ≤ s.topIndex ∧ s.topIndex < (s.cfg.memSize : Int) := by
    rw [topIndex_eq]
    omega
  refine ⟨_, exec_pop_of_occupied hw hocc hle, topIndex_eq s, ?_,
    memRead_of_mem_setWord hwf hlow hhigh (setReg_cfg ..) rfl, Nat.sub_add_cancel hocc,
    (onlyRegs_setReg s q _).onlyWord_setWord hlow .., rfl, rfl⟩
  rw [getReg_mk, getReg_setReg_same]
  exact memRead_isSome hlow hhigh

/-- Settles O26: LOAD is a success that writes one register with the word of its slot. -/
theorem loadReadsTheSlotBelowTheTop : Obligations.LoadReadsTheSlotBelowTheTop := by
  intro s w n q hw h0 h1 hle
  obtain ⟨hlow, hhigh⟩ := topIndex_add_inside h0 h1 hle
  obtain ⟨t, ht, hq, hframe⟩ :=
    succeed_setReg_spec s q (Memory.word s.mem (s.topIndex + s.stackOffset n).toNat) 2
  refine ⟨t, (exec_load_of_inside hw h0 h1 hle).trans ht, ?_, hframe⟩
  rw [hq, ← topIndex_eq]
  exact memRead_isSome hlow hhigh

/-- Settles O27: the next state of STORE is `s` with the word of one slot stored. -/
theorem storeWritesTheSlotBelowTheTop : Obligations.StoreWritesTheSlotBelowTheTop := by
  intro s w n q hw h0 h1 hle hwf
  obtain ⟨hlow, hhigh⟩ := topIndex_add_inside h0 h1 hle
  refine ⟨_, exec_store_of_inside hw h0 h1 hle, ?_, memRead_of_mem_setWord hwf hlow hhigh rfl rfl, rfl,
    (OnlyRegs.refl s).onlyWord_setWord hlow .., rfl, rfl⟩
  rw [topIndex_eq, State.stackOffset]

/-! ## A push undone by a pop -/

/-- The slot a push fills is free, so it holds zero (20_memory.md R58). -/
theorem State.Inv.word_pushIndex (hs : s.Inv) (hroom : s.ssize < s.cfg.stackCap) :
    Memory.word s.mem s.pushIndex.toNat = 0 := by
  have hcap := (Config.valid_iff.mp hs.cfgValid).1
  have hindex : s.pushIndex.toNat = s.cfg.memSize - 1 - s.ssize := by
    rw [pushIndex_eq]
    omega
  rw [hindex]
  exact hs.freeZero s.ssize hroom le_rfl

/-- After a push the top is the slot it filled (20_memory.md R54). -/
theorem topIndex_of_ssize_succ (hcfg : t.cfg = s.cfg) (hn : t.ssize = s.ssize + 1) : t.topIndex = s.pushIndex := by
  rw [topIndex_eq, pushIndex_eq, hcfg, hn]
  omega

/-- A pop after a push takes the word pushed and writes back the zero that stood there before, so that memory and counter are
those before the push (20_memory.md R55, R56, R58; D10). -/
theorem pop_of_pushed (hs : s.Inv) (hroom : s.ssize < s.cfg.stackCap) (hcfg : t.cfg = s.cfg)
    (hmem : t.mem = Memory.setWord s.mem s.pushIndex.toNat v) (hn : t.ssize = s.ssize + 1) :
    t.pop = .done (v, { t with mem := s.mem, ssize := s.ssize }) := by
  have htop := topIndex_of_ssize_succ hcfg hn
  have hcap := (Config.valid_iff.mp hs.cfgValid).1
  have hrestore := setWord_setWord_restore (k := s.pushIndex.toNat) (v := v) hs.memWf
  rw [hs.word_pushIndex hroom] at hrestore
  refine pop_done.mpr ⟨by omega, ?_, ?_, ?_⟩
  · rw [htop, pushIndex_eq, hcfg]
    omega
  · rw [htop, hmem, word_setWord_same hs.memWf]
  · rw [htop, hmem, hrestore, hn, Nat.add_sub_cancel]

/-- Settles O29: the state after PUSH differs from `s` by the push, `pc` and the status only, and POP undoes the push. -/
theorem pushThenPopCopiesAndRestoresTheStack : Obligations.PushThenPopCopiesAndRestoresTheStack := by
  intro s w1 w2 q1 q2 hs hw1 hw2 hroom
  have hcap := (Config.valid_iff.mp hs.cfgValid).1
  refine ⟨_, exec_push_of_room hw1 hroom hcap, ?_⟩
  have hpc : s.pc + 2 + 2 = s.pc + 4 := BitVec.add_assoc ..
  rw [exec_pop_of_done hw2 (pop_of_pushed (s := s) hs hroom ?_ ?_ ?_), hpc]
  · cases q2 <;> rfl
  all_goals rfl

end Sys2Proof.Machine

/-! # Control flow (45_control_flow.md R180 to R188) -/

namespace Sys2Proof.Machine

variable {s t : State} {addr retaddr v : Word}

/-! ## CALL and RET -/

/-- With a free slot the slot a push fills is inside the memory (20_memory.md R50, R55). -/
theorem pushIndex_inside (hroom : s.ssize < s.cfg.stackCap) (hcap : s.cfg.stackCap ≤ s.cfg.memSize) :
    0 ≤ s.pushIndex ∧ s.pushIndex < (s.cfg.memSize : Int) := by
  rw [pushIndex_eq]
  omega

/-- With an occupied slot the top is inside the memory (20_memory.md R50, R56). -/
theorem topIndex_inside (hocc : 0 < s.ssize) (hle : s.ssize ≤ s.cfg.memSize) :
    0 ≤ s.topIndex ∧ s.topIndex < (s.cfg.memSize : Int) := by
  rw [topIndex_eq]
  omega

/-- CALL with a free slot (R186). -/
theorem exec_call_of_room (hroom : s.ssize < s.cfg.stackCap) (hcap : s.cfg.stackCap ≤ s.cfg.memSize) :
    exec (.call addr retaddr) s = .next { s with
      mem := Memory.setWord s.mem s.pushIndex.toNat retaddr, ssize := s.ssize + 1, pc := addr, status := .ok } := by
  have hpush := push_eq (s := s.skipOperands 2) (v := retaddr) hroom hcap
  rw [exec, execCall, hpush]
  rfl

/-- RET where `pop` is done (R187). -/
theorem exec_ret_of_done (hpop : s.pop = .done (v, t)) : exec .ret s = .next { t with pc := v, status := .ok } := by
  rw [exec, execRet, hpop]
  rfl

/-- Settles O34: the next state of CALL is `s` with one word stored, the counter moved and `pc` at the target. -/
theorem callPushesAndJumps : Obligations.CallPushesAndJumps := by
  intro s addr retaddr hroom hcap hwf
  obtain ⟨hlow, hhigh⟩ := pushIndex_inside hroom hcap
  exact ⟨_, exec_call_of_room hroom hcap, memRead_of_mem_setWord hwf hlow hhigh rfl rfl, rfl,
    (OnlyRegs.refl s).onlyWord_setWord hlow .., rfl, rfl⟩

/-- Settles O35: the next state of RET is `s` with the word of the top zeroed, the counter moved and `pc` at the word that stood
there. -/
theorem retPopsAndJumps : Obligations.RetPopsAndJumps := by
  intro s hocc hle hwf
  obtain ⟨hlow, hhigh⟩ := topIndex_inside hocc hle
  exact ⟨_, exec_ret_of_done (pop_eq hocc hle), memRead_isSome hlow hhigh,
    memRead_of_mem_setWord hwf hlow hhigh rfl rfl, Nat.sub_add_cancel hocc,
    (OnlyRegs.refl s).onlyWord_setWord hlow .., rfl⟩

/-- Settles O36: a subroutine that ends with the memory and the counter CALL left ends in a pushed state, whatever else it
changed, and the pop of RET undoes the push. -/
theorem callThenReturnRestoresTheStack : Obligations.CallThenReturnRestoresTheStack := by
  intro s addr retaddr hs hroom
  have hcap := (Config.valid_iff.mp hs.cfgValid).1
  refine ⟨_, exec_call_of_room hroom hcap, rfl, fun v hcfg hmem hn => ?_⟩
  exact exec_ret_of_done (pop_of_pushed hs hroom hcfg hmem hn)

/-! ## Jumps -/

/-- A jump on the truth of `p`, in the words of R180: to the operand, or on past it. -/
theorem branch_of_iff {b : Bool} {p : Prop} [Decidable p] (h : b = true ↔ p) :
    branch b addr s = .next { s with pc := if p then addr else s.pc + 2, status := .ok } := by
  simp only [branch_eq, h]

/-- JMP (R182). -/
theorem exec_jmp : exec (.jmp addr) s = .next { s with pc := addr, status := .ok } :=
  branch_eq true addr s

/-- JZ (R183). -/
theorem exec_jz : exec (.jz addr) s =
    .next { s with pc := if s.getReg .RES = 0 then addr else s.pc + 2, status := .ok } :=
  branch_of_iff decide_eq_true_iff

/-- JZ is taken while Result is zero (R183). -/
theorem exec_jz_of_zero (h : s.getReg .RES = 0) :
    exec (.jz addr) s = .next { s with pc := addr, status := .ok } := by
  rw [exec_jz, if_pos h]

/-- JNZ (R184). -/
theorem exec_jnz : exec (.jnz addr) s =
    .next { s with pc := if s.getReg .RES ≠ 0 then addr else s.pc + 2, status := .ok } :=
  branch_of_iff decide_eq_true_iff

/-- JGT (R185): greater than zero is at least 1. -/
theorem exec_jgt : exec (.jgt addr) s =
    .next { s with pc := if 1 ≤ (s.getReg .RES).toInt then addr else s.pc + 2, status := .ok } :=
  branch_of_iff (decide_eq_true_iff.trans Order.one_le_iff_pos.symm)

/-- LOOP (R181). -/
theorem exec_loop : exec (.loop addr) s =
    .next { s with pc := if s.getReg .C ≠ 0 then addr else s.pc + 2, status := .ok } :=
  branch_of_iff decide_eq_true_iff

/-- Settles O31: JMP is a jump on no condition, and after `JMP -1` the bound check of the next fetch raises. -/
theorem jmpSetsPcToItsOperand : Obligations.JmpSetsPcToItsOperand := by
  refine fun s addr => ⟨rfl, exec_jmp, exec_jmp, _, exec_jmp, ?_, rfl⟩
  have hnegative : (-1 : Word).toInt < 0 := by decide
  exact (step_of_fetch_raises rfl (fetch_of_pc_outside (.inl hnegative))).1

/-- Settles O32: each is a jump on its test of Result, which is zero after reset and after every create. -/
theorem conditionalJumpsTestTheResult : Obligations.ConditionalJumpsTestTheResult := by
  refine fun s addr => ⟨rfl, rfl, rfl, exec_jz, exec_jnz, exec_jgt, exec_jz_of_zero (getReg_softReset ..), ?_⟩
  intro cfg image input output t ht
  obtain ⟨_, rfl⟩ := create_eq_some.mp ht
  exact exec_jz_of_zero (getReg_powerOn _)

/-- Settles O33: LOOP is a jump on its test of C. -/
theorem loopJumpsWhileCIsNotZero : Obligations.LoopJumpsWhileCIsNotZero :=
  fun _ _ => ⟨rfl, exec_loop⟩

end Sys2Proof.Machine

/-! # Input and output (46_io.md R201 to R207) -/

namespace Sys2Proof.Machine

variable {s t u : State} {but but' : List Reg} {w v : Word} {q : Reg} {d : InDev} {b : Byte} {bs : List Byte}

/-! ## Frames on the devices -/

theorem OnlyRegs.trans (h1 : OnlyRegs but s u) (h2 : OnlyRegs but' u t) : OnlyRegs (but' ++ but) s t where
  regs r hr := by
    obtain ⟨hr2, hr1⟩ := not_or.mp (List.mem_append.not.mp hr)
    exact (h2.regs r hr2).trans (h1.regs r hr1)
  mem a := (h2.mem a).trans (h1.mem a)
  ssize := h2.ssize.trans h1.ssize
  cfg := h2.cfg.trans h1.cfg
  input := h2.input.trans h1.input
  output := h2.output.trans h1.output

/-- What is framed from the state with the device consumed is, but for the device, framed from the state before. -/
theorem OnlyRegs.restoreInput (h : OnlyRegs but { s with input := d } t) : OnlyRegs but s { t with input := s.input } where
  regs r hr := (getReg_mk ..).trans ((h.regs r hr).trans (getReg_mk ..))
  mem := h.mem
  ssize := h.ssize
  cfg := h.cfg
  input := rfl
  output := h.output

/-- A success that writes bytes changes nothing but the output (46_io.md R203, R204). -/
theorem succeed_emit_spec (s : State) (bs : List Byte) (k : Nat) :
    ∃ t, succeed ((s.skipOperands k).emit bs) = .next t ∧ t.output = s.output ++ bs ∧
      OnlyRegs [] s { t with output := s.output } ∧ Completed k s t := by
  refine ⟨_, succeed_eq _, rfl, ?_, completed_succeed rfl⟩
  exact ⟨fun _ _ => getReg_mk .., fun _ => rfl, rfl, rfl, rfl, rfl⟩

/-! ## IN and GET, by what the device answers -/

theorem exec_inp_of_int (hw : Names w q) (h : s.input.readInt = .int v d) :
    exec (.inp w) s = succeed ((State.skipOperands { s with input := d } 1).setReg q v) := by
  rw [exec, execInp, withReg_names hw, skipOperands_input, h]
  rfl

theorem exec_inp_of_fail (hw : Names w q) (h : s.input.readInt = .fail d) :
    exec (.inp w) s = .next { raisedState .ioError 1 s with input := d } := by
  rw [exec, execInp, withReg_names hw, skipOperands_input, h]
  rfl

theorem waitsForInput_inp (hw : Names w q) (h : s.input.readInt = .wait) : waitsForInput (.inp w) s = true := by
  simp [waitsForInput, regOfWord_of_names hw, h]

/-- Settles O37: a success that writes one register, from the state with the device consumed; or a raise; or the wait. -/
theorem inReadsAnIntegerOrRaisesIoError : Obligations.InReadsAnIntegerOrRaisesIoError := by
  refine fun s w q hw => ⟨fun v d h => ?_, fun d h => exec_inp_of_fail hw h, fun h => ?_⟩
  · obtain ⟨t, ht, hq, hframe, hdone⟩ := succeed_setReg_spec { s with input := d } q v 1
    exact ⟨t, (exec_inp_of_int hw h).trans ht, hq, hframe.input, hframe.restoreInput, hdone⟩
  · have hwaits := waitsForInput_inp hw h
    exact ⟨exec_of_waits hwaits, hwaits⟩

theorem readByte_of_cons (h : d.bytes = b :: bs) : d.readByte = .byte b { d with bytes := bs } := by
  rw [InDev.readByte, h]

theorem readByte_of_nil (h : d.bytes = []) : d.readByte = if d.ended then .eof else .wait := by
  rw [InDev.readByte, h]

theorem exec_get_of_byte (hw : Names w q) (h : s.input.readByte = .byte b d) :
    exec (.get w) s = succeed ((State.skipOperands { s with input := d } 1).setReg q (b.setWidth 32)) := by
  rw [exec, execGet, withReg_names hw, skipOperands_input, h]
  rfl

theorem exec_get_of_eof (hw : Names w q) (h : s.input.readByte = .eof) :
    exec (.get w) s = succeed (((s.setReg .C 0).skipOperands 1).setReg q (-1)) := by
  rw [exec, execGet, withReg_names hw, skipOperands_input, h]
  rfl

theorem waitsForInput_get (hw : Names w q) (h : s.input.readByte = .wait) : waitsForInput (.get w) s = true := by
  simp [waitsForInput, regOfWord_of_names hw, h]

/-- A byte in a word is never negative (46_io.md R202, D12). -/
theorem toInt_setWidth_byte (b : Byte) : (b.setWidth 32).toInt = b.toNat := by
  rw [BitVec.toInt_setWidth]
  exact Int.bmod_eq_of_le (by omega) (by omega)

/-- Settles O40: a byte is written as IN writes an integer; at the end of the stream C is written first, then the
register. -/
theorem getReadsAByteOrTheEndOfStream : Obligations.GetReadsAByteOrTheEndOfStream := by
  refine fun s w q hw => ⟨fun b bs h => ?_, fun h hended => ?_, fun h hended => ?_⟩
  · obtain ⟨t, ht, hq, hframe, hdone⟩ :=
      succeed_setReg_spec { s with input := { s.input with bytes := bs } } q (b.setWidth 32) 1
    refine ⟨t, (exec_get_of_byte hw (readByte_of_cons h)).trans ht, ?_, hframe.input, hframe.restoreInput, hdone⟩
    rw [hq, toInt_setWidth_byte]
  · obtain ⟨t, ht, hq, hframe, hdone⟩ := succeed_setReg_spec (s.setReg .C 0) q (-1) 1
    have heof : s.input.readByte = .eof := by rw [readByte_of_nil h, hended, if_pos rfl]
    refine ⟨t, (exec_get_of_eof hw heof).trans ht, ?_, fun hne => ?_, (onlyRegs_setReg s .C 0).trans hframe, hdone⟩
    · rw [hq]
      decide
    · rw [hframe.regs .C (by simpa using hne.symm), getReg_setReg_same]
  · have hwaits := waitsForInput_get hw (s := s) (by simp [readByte_of_nil h, hended])
    exact ⟨exec_of_waits hwaits, hwaits⟩

/-! ## OUT and PUT -/

theorem exec_out (hw : Names w q) :
    exec (.out w) s = succeed ((s.skipOperands 1).emit (outDec (s.getReg q))) := by
  rw [exec, execOut, withReg_names hw, getReg_skipOperands]

theorem exec_put_of_byte (hw : Names w q) (h0 : 0 ≤ (s.getReg q).toInt) (h1 : (s.getReg q).toInt ≤ 255) :
    exec (.put w) s = succeed ((s.skipOperands 1).emit [(s.getReg q).setWidth 8]) := by
  rw [exec, execPut, withReg_names hw, getReg_skipOperands, if_neg (by omega)]

theorem exec_put_of_outside (hw : Names w q) (h : (s.getReg q).toInt < 0 ∨ 255 < (s.getReg q).toInt) :
    exec (.put w) s = .next (raisedState .illegalOperand 1 s) := by
  rw [exec, execPut, withReg_names hw, getReg_skipOperands, if_pos h, raise_skipOperands]

/-- A word from 0 to 255 is its low byte (46_io.md R204). -/
theorem toNat_setWidth_of_byte (h0 : 0 ≤ v.toInt) (h1 : v.toInt ≤ 255) : ((v.setWidth 8).toNat : Int) = v.toInt := by
  have hmsb : v.msb = false := by rw [BitVec.msb_eq_toInt, decide_eq_false_iff_not, not_lt]; exact h0
  have hv : v.toInt = v.toNat := BitVec.toInt_eq_toNat_of_msb hmsb
  rw [BitVec.toNat_setWidth, Nat.mod_eq_of_lt (by omega), hv]

/-- Settles O42: PUT writes the low byte of a value that fits one, and raises on any other. -/
theorem putAppendsOneByteOrRaises : Obligations.PutAppendsOneByteOrRaises := by
  refine fun s w q hw => ⟨fun h0 h1 => ?_, exec_put_of_outside hw⟩
  obtain ⟨t, ht, hout, hframe⟩ := succeed_emit_spec s [(s.getReg q).setWidth 8] 1
  exact ⟨t, _, (exec_put_of_byte hw h0 h1).trans ht, hout, toNat_setWidth_of_byte h0 h1, hframe⟩

/-! ## The decimal writer (R207) -/

variable {n fuel : Nat} {ds : List Byte}

theorem toNat_digitByte (h : n < 10) : (digitByte n).toNat = 0x30 + n := by
  rw [digitByte, BitVec.toNat_ofNat]
  omega

theorem asciiDigit_digitByte (h : n < 10) : AsciiDigit (digitByte n) := by
  rw [AsciiDigit, toNat_digitByte h]
  omega

/-- Horner's rule, as both the reader and the writer use it. -/
theorem asciiValue_append_singleton (ds : List Byte) (b : Byte) :
    asciiValue (ds ++ [b]) = 10 * asciiValue ds + (b.toNat - 0x30) := by
  simp only [asciiValue, List.reverse_append, List.reverse_singleton, List.singleton_append, List.map_cons,
    Nat.ofDigits_cons]
  exact Nat.add_comm ..

theorem asciiValue_digitByte (h : n < 10) : asciiValue [digitByte n] = n := by
  have hvalue := asciiValue_append_singleton [] (digitByte n)
  rw [toNat_digitByte h] at hvalue
  exact hvalue.trans (by simp [asciiValue])

theorem decimalDigits_of_lt (h : n < 10) : decimalDigits (fuel + 1) n = [digitByte n] := if_pos h

theorem decimalDigits_of_ge (h : ¬ n < 10) :
    decimalDigits (fuel + 1) n = decimalDigits fuel (n / 10) ++ [digitByte (n % 10)] := if_neg h

theorem decimalDigits_ne_nil : decimalDigits (fuel + 1) n ≠ [] := by
  by_cases h : n < 10
  · simp [decimalDigits_of_lt h]
  · simp [decimalDigits_of_ge h]

theorem asciiDigit_of_mem_decimalDigits (h : b ∈ decimalDigits fuel n) : AsciiDigit b := by
  induction fuel generalizing n with
  | zero => cases h
  | succ fuel ih =>
    by_cases hn : n < 10
    · rw [decimalDigits_of_lt hn, List.mem_singleton] at h
      exact h ▸ asciiDigit_digitByte hn
    · rw [decimalDigits_of_ge hn, List.mem_append, List.mem_singleton] at h
      rcases h with hinit | rfl
      · exact ih hinit
      · exact asciiDigit_digitByte (Nat.mod_lt n (by decide))

/-- With enough fuel no digit is lost. -/
theorem asciiValue_decimalDigits (h : n < 10 ^ fuel) : asciiValue (decimalDigits fuel n) = n := by
  induction fuel generalizing n with
  | zero => exact (Nat.lt_one_iff.mp h).symm
  | succ fuel ih =>
    by_cases hn : n < 10
    · rw [decimalDigits_of_lt hn, asciiValue_digitByte hn]
    · have hlast : n % 10 < 10 := Nat.mod_lt n (by decide)
      rw [decimalDigits_of_ge hn, asciiValue_append_singleton, ih (by omega), toNat_digitByte hlast]
      omega

/-- No leading zero: the first digit is that of the last quotient below ten, which is not zero. -/
theorem head?_decimalDigits_ne_zero (h : n < 10 ^ fuel) (hpos : 0 < n) : (decimalDigits fuel n).head? ≠ some 0x30 := by
  induction fuel generalizing n with
  | zero => simp [decimalDigits]
  | succ fuel ih =>
    by_cases hn : n < 10
    · have hbyte : (digitByte n).toNat ≠ (0x30 : Byte).toNat := by
        rw [toNat_digitByte hn]
        simpa using hpos.ne'
      rw [decimalDigits_of_lt hn, List.head?_singleton]
      exact fun heq => hbyte (congrArg BitVec.toNat (Option.some.inj heq))
    · have hquot : n / 10 < 10 ^ fuel := by omega
      cases fuel with
      | zero => omega
      | succ fuel =>
        rw [decimalDigits_of_ge hn, List.head?_append_of_ne_nil _ decimalDigits_ne_nil]
        exact ih hquot (by omega)

theorem outDec_eq (v : Word) :
    outDec v = (if v.toInt < 0 then [0x2D] else []) ++ decimalDigits 10 v.toInt.natAbs := by
  rw [outDec]
  split <;> rfl

/-- Ten digits hold the magnitude of every word (R207). -/
theorem natAbs_toInt_lt (v : Word) : v.toInt.natAbs < 10 ^ 10 := by
  have h0 := v.le_toInt
  have h1 := v.toInt_lt
  omega

/-- Settles O41: OUT is a success that writes the sign and the digits of the register. -/
theorem outAppendsDecimalText : Obligations.OutAppendsDecimalText := by
  intro s w q hw
  have hbound := natAbs_toInt_lt (s.getReg q)
  obtain ⟨t, ht, hout, hframe⟩ := succeed_emit_spec s (outDec (s.getReg q)) 1
  refine ⟨t, decimalDigits 10 (s.getReg q).toInt.natAbs, (exec_out hw).trans ht, ?_,
    fun _ => asciiDigit_of_mem_decimalDigits, asciiValue_decimalDigits hbound, decimalDigits_ne_nil, fun hzero => ?_,
    hframe⟩
  · rw [hout, outDec_eq]
  · rcases Nat.eq_zero_or_pos (s.getReg q).toInt.natAbs with h | h
    · rw [h]
      rfl
    · exact absurd hzero (head?_decimalDigits_ne_zero hbound h)

/-! ## The decimal reader (R206) -/

variable {ws sign rest : List Byte} {ended : Bool}

theorem isSpace_iff : isSpace b = true ↔ Whitespace b := by
  simp [isSpace, Whitespace]

theorem isDigit_iff : isDigit b = true ↔ AsciiDigit b := by
  simp [isDigit, AsciiDigit]

/-- The reader's fold is the value of the digits. -/
theorem digitsValue_eq (ds : List Byte) : digitsValue ds = asciiValue ds := by
  induction ds using List.reverseRecOn with
  | nil => rfl
  | append_singleton ds b ih => rw [asciiValue_append_singleton, ← ih, digitsValue, List.foldl_append]; rfl

theorem dropWhile_eq_self_of_head? {p : Byte → Bool} {l : List Byte} (h : ∀ b, l.head? = some b → ¬ p b = true) :
    l.dropWhile p = l :=
  List.dropWhile_eq_self_iff.mpr fun hl => h _ (List.head?_eq_getElem?.trans (List.getElem?_eq_getElem hl))

/-- A digit is neither whitespace nor a sign. -/
theorem AsciiDigit.not_space_or_sign (h : AsciiDigit b) : ¬ Whitespace b ∧ b ≠ 0x2D ∧ b ≠ 0x2B := by
  obtain ⟨hlow, _⟩ := h
  refine ⟨fun hspace => ?_, ?_, ?_⟩
  · simp only [Whitespace, List.mem_cons, List.not_mem_nil, or_false] at hspace
    rcases hspace with rfl | rfl | rfl | rfl | rfl | rfl <;> exact absurd hlow (by decide)
  all_goals
    rintro rfl
    exact absurd hlow (by decide)

/-- The bytes `ws ++ sign ++ ds ++ rest` cut as the reader cuts them (`ReaderCut.readInt_eq`; R206 steps 1 and 2):
whitespace, an optional sign, as many digits as there are (perhaps none), and what follows. -/
structure ReaderCut (ws sign ds rest : List Byte) : Prop where
  spaces : ∀ b ∈ ws, Whitespace b
  signed : sign = [] ∨ sign = [0x2D] ∨ sign = [0x2B]
  digits : ∀ b ∈ ds, AsciiDigit b
  stops : ∀ b, rest.head? = some b → ¬ AsciiDigit b
  starts : sign = [] → ∀ b, (ds ++ rest).head? = some b → ¬ Whitespace b ∧ b ≠ 0x2D ∧ b ≠ 0x2B

namespace ReaderCut

/-- With a digit, or with nothing, behind it, the whitespace ends where it should. -/
theorem of_digits (hspaces : ∀ b ∈ ws, Whitespace b) (hsigned : sign = [] ∨ sign = [0x2D] ∨ sign = [0x2B])
    (hdigits : ∀ b ∈ ds, AsciiDigit b) (hstops : ∀ b, rest.head? = some b → ¬ AsciiDigit b)
    (hds : ds = [] → rest = []) : ReaderCut ws sign ds rest where
  spaces := hspaces
  signed := hsigned
  digits := hdigits
  stops := hstops
  starts := by
    intro _ b hb
    cases ds with
    | nil =>
      rw [hds rfl] at hb
      cases hb
    | cons c ds =>
      obtain rfl : c = b := Option.some.inj hb
      exact (hdigits c List.mem_cons_self).not_space_or_sign

variable (h : ReaderCut ws sign ds rest)
include h

theorem dropWhile_isSpace : (ws ++ sign ++ ds ++ rest).dropWhile isSpace = sign ++ ds ++ rest := by
  have hws : ∀ b ∈ ws, isSpace b = true := fun b hb => isSpace_iff.mpr (h.spaces b hb)
  rw [List.append_assoc, List.append_assoc, List.dropWhile_append_of_pos hws, List.append_assoc]
  refine dropWhile_eq_self_of_head? fun b hb => ?_
  rcases h.signed with rfl | rfl | rfl
  · exact fun hspace => (h.starts rfl b hb).1 (isSpace_iff.mp hspace)
  all_goals
    obtain rfl := Option.some.inj hb
    decide

theorem takeSign_token : takeSign (sign ++ ds ++ rest) = (decide (sign = [0x2D]), ds ++ rest) := by
  rw [List.append_assoc]
  rcases h.signed with rfl | rfl | rfl
  · cases hbody : ds ++ rest with
    | nil => rfl
    | cons b bs =>
      obtain ⟨_, hminus, hplus⟩ := h.starts rfl b (by rw [hbody, List.head?_cons])
      exact (if_neg hminus).trans (if_neg hplus)
  all_goals rfl

theorem takeWhile_dropWhile_isDigit : (ds ++ rest).takeWhile isDigit = ds ∧ (ds ++ rest).dropWhile isDigit = rest := by
  have hds : ∀ b ∈ ds, isDigit b = true := fun b hb => isDigit_iff.mpr (h.digits b hb)
  have hrest : rest.dropWhile isDigit = rest :=
    dropWhile_eq_self_of_head? fun b hb => isDigit_iff.not.mpr (h.stops b hb)
  have hdrop : (ds ++ rest).dropWhile isDigit = rest := by rw [List.dropWhile_append_of_pos hds, hrest]
  have hsplit := List.takeWhile_append_dropWhile (p := isDigit) (l := ds ++ rest)
  rw [hdrop] at hsplit
  exact ⟨List.append_cancel_right hsplit, hdrop⟩

/-- What the reader answers on bytes cut this way (R206; the wait is R205, log 6). -/
theorem readInt_eq : InDev.readInt { bytes := ws ++ sign ++ ds ++ rest, ended := ended } =
    if rest = [] ∧ ended = false then .wait
    else if ds = [] then .fail { bytes := sign ++ ds ++ rest, ended := ended }
    else if tokenValue sign ds < intMin ∨ intMax < tokenValue sign ds then
      .fail { bytes := sign ++ ds ++ rest, ended := ended }
    else .int (wrap32 (tokenValue sign ds)) { bytes := rest, ended := ended } := by
  obtain ⟨htake, hdrop⟩ := h.takeWhile_dropWhile_isDigit
  simp only [InDev.readInt, h.dropWhile_isSpace, h.takeSign_token, htake, hdrop, digitsValue_eq, decide_eq_true_eq]
  rfl

theorem readInt_wait (hrest : rest = []) :
    InDev.readInt { bytes := ws ++ sign ++ ds ++ rest, ended := false } = .wait := by
  rw [h.readInt_eq, if_pos ⟨hrest, rfl⟩]

theorem readInt_no_digit (hended : rest = [] → ended = true) (hds : ds = []) :
    InDev.readInt { bytes := ws ++ sign ++ ds ++ rest, ended := ended } =
      .fail { bytes := sign ++ ds ++ rest, ended := ended } := by
  rw [h.readInt_eq, if_neg (by simpa using hended), if_pos hds]

theorem readInt_out_of_range (hended : rest = [] → ended = true) (hds : ds ≠ [])
    (hout : tokenValue sign ds < intMin ∨ intMax < tokenValue sign ds) :
    InDev.readInt { bytes := ws ++ sign ++ ds ++ rest, ended := ended } =
      .fail { bytes := sign ++ ds ++ rest, ended := ended } := by
  rw [h.readInt_eq, if_neg (by simpa using hended), if_neg hds, if_pos hout]

theorem readInt_int (hended : rest = [] → ended = true) (hds : ds ≠ []) (hv : v.toInt = tokenValue sign ds) :
    InDev.readInt { bytes := ws ++ sign ++ ds ++ rest, ended := ended } = .int v { bytes := rest, ended := ended } := by
  obtain ⟨hlow, hhigh⟩ := toInt_range v
  rw [h.readInt_eq, if_neg (by simpa using hended), if_neg hds, ← hv, if_neg (by omega), wrap32, BitVec.ofInt_toInt]

end ReaderCut

/-- Settles O38: the reader cuts the bytes as they are written down, and takes the token when its value fits a word. -/
theorem readerAcceptsSignedDecimal : Obligations.ReaderAcceptsSignedDecimal := by
  intro ws sign ds rest ended hspaces hsigned hds hdigits hstops hended
  have hcut := ReaderCut.of_digits hspaces hsigned hdigits hstops (absurd · hds)
  exact ⟨fun h0 h1 => ⟨_, toInt_wrap32 h0 h1, hcut.readInt_int hended hds (toInt_wrap32 h0 h1)⟩,
    hcut.readInt_out_of_range hended hds⟩

/-- Settles O39: with no digit the cut has an empty digit string; with nothing behind the digits the reader waits. -/
theorem readerFailsOrWaitsWithoutToken : Obligations.ReaderFailsOrWaitsWithoutToken := by
  refine fun ws sign ds rest ended hspaces hsigned hdigits hrest => ⟨fun _ hended => ?_, ?_⟩
  · have hcut : ReaderCut ws sign [] rest :=
      ⟨hspaces, hsigned, fun _ hb => absurd hb List.not_mem_nil, fun b hb => (hrest b hb).1,
        fun hs b hb => (hrest b hb).2 hs⟩
    simpa using hcut.readInt_no_digit hended rfl
  · have hcut : ReaderCut ws sign ds [] := .of_digits hspaces hsigned hdigits (fun _ hb => nomatch hb) (fun _ => rfl)
    simpa using hcut.readInt_wait rfl

/-- The sign and the digits OUT writes stand for the word (R207). -/
theorem tokenValue_outDec (v : Word) :
    tokenValue (if v.toInt < 0 then [0x2D] else []) (decimalDigits 10 v.toInt.natAbs) = v.toInt := by
  rw [tokenValue, asciiValue_decimalDigits (natAbs_toInt_lt v)]
  by_cases h : v.toInt < 0
  · rw [if_pos h, if_pos rfl]
    omega
  · rw [if_neg h, if_neg (by simp)]
    omega

/-- Settles O43: what OUT writes is a token with no whitespace before it and nothing behind it. -/
theorem readerReadsBackWhatOutWrites : Obligations.ReaderReadsBackWhatOutWrites := by
  intro v
  have hcut : ReaderCut [] (if v.toInt < 0 then [0x2D] else []) (decimalDigits 10 v.toInt.natAbs) [] := by
    refine .of_digits (fun _ hb => absurd hb List.not_mem_nil) ?_ (fun _ => asciiDigit_of_mem_decimalDigits)
      (fun _ hb => nomatch hb) (fun _ => rfl)
    split <;> simp
  have hread := hcut.readInt_int (fun _ => rfl) decimalDigits_ne_nil (tokenValue_outDec v).symm
  rwa [List.append_nil, List.nil_append, ← outDec_eq] at hread

end Sys2Proof.Machine

/-! # What raises and what a raise leaves (60_exceptions.md R221, R223, R224) -/

namespace Sys2Proof.Machine

variable {s t u : State} {w n : Word} {q : Reg} {k : Nat} {e : ErrorKind}

/-! ## The stack's bounds -/

/-- Going on from a slot that is not occupied raises (20_memory.md R57). -/
theorem resolve_slot_of_outside {off : Int} {go : Int → Result}
    (hout : off < 0 ∨ s.ssize = 0 ∨ (s.ssize : Int) ≤ off) :
    (s.slot off).resolve s go = raise .invalidStackOperation s := by
  rw [slot_raises.mpr ⟨hout, rfl⟩]
  rfl

theorem exec_load_of_outside (hw : Names w q)
    (hout : s.stackOffset n < 0 ∨ s.ssize = 0 ∨ (s.ssize : Int) ≤ s.stackOffset n) :
    exec (.load w n) s = .next (raisedState .invalidStackOperation 2 s) := by
  rw [exec, execLoad, withReg_names hw]
  exact resolve_slot_of_outside (s := s.skipOperands 2) hout

theorem exec_store_of_outside (hw : Names w q)
    (hout : s.stackOffset n < 0 ∨ s.ssize = 0 ∨ (s.ssize : Int) ≤ s.stackOffset n) :
    exec (.store w n) s = .next (raisedState .invalidStackOperation 2 s) := by
  rw [exec, execStore, withReg_names hw]
  exact resolve_slot_of_outside (s := s.skipOperands 2) hout

/-- Settles O28: each of the three stack primitives raises at its bound, after the operand words are skipped. -/
theorem stackBoundsRaiseInvalidStackOperation : Obligations.StackBoundsRaiseInvalidStackOperation :=
  fun _ _ _ _ _ hw =>
    ⟨fun hfull => ⟨exec_push_of_full hw hfull, exec_call_of_full hfull⟩,
      fun hempty => ⟨exec_pop_of_empty hw hempty, exec_ret_of_empty hempty⟩,
      fun hout => ⟨exec_load_of_outside hw hout, exec_store_of_outside hw hout⟩⟩

/-! ## How a step ends -/

/-- The ways a step from status Ok can end in the state `t`: without an error; with a raise past `k` operand words, the
devices untouched; or in IN, with the device as the reader leaves it when it finds no integer. -/
inductive StepEnd (s t : State) : Prop where
  | noError (status : t.status = .ok ∨ t.status = .halted)
  | raised (e : ErrorKind) (k : Nat) (kind : e ≠ .ioError) (words : k ≤ 2) (state : t = raisedState e k s)
  | noInteger (d : InDev) (answer : s.input.readInt = .fail d)
      (state : t = { raisedState .ioError 1 s with input := d })

theorem stepEnd_raise (h : raise e (s.skipOperands k) = .next t) (he : e ≠ .ioError) (hk : k ≤ 2) : StepEnd s t :=
  .raised e k he hk (Host.Outcome.next.inj h).symm

theorem stepEnd_succeed (h : succeed u = .next t) : StepEnd s t := by
  cases h
  exact .noError (.inl rfl)

theorem stepEnd_jumpTo {a : Word} (h : jumpTo a u = .next t) : StepEnd s t := by
  cases h
  exact .noError (.inl rfl)

theorem stepEnd_branch {b : Bool} {a : Word} (h : branch b a s = .next t) : StepEnd s t := by
  rw [branch_eq] at h
  cases h
  exact .noError (.inl rfl)

theorem stepEnd_withReg {go : Reg → State → Result} (h : withReg k w s go = .next t) (hk : k ≤ 2)
    (hgo : ∀ q, go q (s.skipOperands k) = .next t → StepEnd s t) : StepEnd s t := by
  rcases withReg_next h with ⟨q, _, hq⟩ | ⟨_, ht⟩
  · exact hgo q hq
  · exact .raised .illegalOperand k nofun hk ht

theorem stepEnd_withRegs {w1 w2 : Word} {go : Reg → Reg → State → Result} (h : withRegs w1 w2 s go = .next t)
    (hgo : ∀ q1 q2, go q1 q2 (s.skipOperands 2) = .next t → StepEnd s t) : StepEnd s t := by
  rcases withRegs_cases w1 w2 s go with ⟨q1, q2, _, _, hq⟩ | ⟨_, hraise⟩
  · exact hgo q1 q2 (hq.symm.trans h)
  · exact stepEnd_raise (hraise.symm.trans h) nofun le_rfl

/-- Going on from an operation that raises InvalidStackOperation only, as the three stack primitives do. -/
theorem stepEnd_resolve {α : Type} {r : Attempt α} {go : α → Result} (h : r.resolve (s.skipOperands k) go = .next t)
    (hk : k ≤ 2) (hr : ∀ e, r = .raises e → e = .invalidStackOperation) (hgo : ∀ a, go a = .next t → StepEnd s t) :
    StepEnd s t := by
  rcases resolve_next h with ⟨a, _, ha⟩ | ⟨e, he, ht⟩
  · exact hgo a ha
  · obtain rfl := hr e he
    exact .raised .invalidStackOperation k nofun hk ht

theorem skipOperands_zero (s : State) : s.skipOperands 0 = s := by
  rw [State.skipOperands, BitVec.add_zero]

/-- However an instruction ends, it is one of the three ways; where it waits the status is still Ok. -/
theorem stepEnd_exec {i : Instr} (hs : s.status = .ok) (h : exec i s = .next t) : StepEnd s t := by
  cases i <;> simp only [exec] at h
  case nop => exact stepEnd_succeed h
  case halt =>
    cases h
    exact .noError (.inr rfl)
  case add | sub | mul | inc | dec | movr | out =>
    simp only [execAdd, execSub, execMul, execInc, execDec, execMovr, execOut] at h
    exact stepEnd_withReg h (by decide) fun _ h => stepEnd_succeed h
  case div | put =>
    simp only [execDiv, execPut] at h
    refine stepEnd_withReg h (by decide) fun _ h => ?_
    split at h
    · exact stepEnd_raise h nofun (by decide)
    · exact stepEnd_succeed h
  case swap | cmp =>
    simp only [execSwap, execCmp] at h
    exact stepEnd_withRegs h fun _ _ h => stepEnd_succeed h
  case loop | jmp | jz | jnz | jgt =>
    simp only [execLoop, execJmp, execJz, execJnz, execJgt] at h
    exact stepEnd_branch h
  case push =>
    simp only [execPush] at h
    exact stepEnd_withReg h (by decide) fun _ h =>
      stepEnd_resolve h (by decide) (fun _ he => (push_raises.mp he).2) fun _ h => stepEnd_succeed h
  case call =>
    exact stepEnd_resolve h le_rfl (fun _ he => (push_raises.mp he).2) fun _ h => stepEnd_jumpTo h
  case pop =>
    simp only [execPop] at h
    exact stepEnd_withReg h (by decide) fun _ h =>
      stepEnd_resolve h (by decide) (fun _ he => (pop_raises.mp he).2) fun _ h => stepEnd_succeed h
  case ret =>
    have h' : s.pop.resolve (s.skipOperands 0) (fun p => jumpTo p.1 p.2) = .next t := by rwa [skipOperands_zero]
    exact stepEnd_resolve h' (by decide) (fun _ he => (pop_raises.mp he).2) fun _ h => stepEnd_jumpTo h
  case load | store =>
    simp only [execLoad, execStore] at h
    refine stepEnd_withReg h le_rfl fun _ h =>
      stepEnd_resolve h le_rfl (fun _ he => (slot_raises.mp he).2) fun _ h => ?_
    split at h
    · exact stepEnd_succeed h
    · cases h
  case inp =>
    simp only [execInp] at h
    refine stepEnd_withReg h (by decide) fun _ h => ?_
    split at h
    next => exact stepEnd_succeed h
    next d answer => exact .noInteger d answer (Host.Outcome.next.inj h).symm
    next =>
      cases h
      exact .noError (.inl hs)
  case get =>
    simp only [execGet] at h
    refine stepEnd_withReg h (by decide) fun _ h => ?_
    split at h
    · exact stepEnd_succeed h
    · exact stepEnd_succeed h
    · cases h
      exact .noError (.inl hs)

theorem stepEnd_step (hs : s.status = .ok) (h : step s = .next t) : StepEnd s t := by
  cases hf : fetch s with
  | raises e =>
    have hraise : raise e (s.skipOperands 0) = .next t := by
      rw [skipOperands_zero]
      exact (step_of_fetch_raises hs hf).1.symm.trans h
    have he : e ≠ .ioError := by
      rcases fetch_raises hf with rfl | rfl <;> nofun
    exact stepEnd_raise hraise he (Nat.zero_le 2)
  | instr i => exact stepEnd_exec hs ((step_of_fetch_instr hs hf).symm.trans h)

/-! ## What a failing step changes -/

/-- A reader that finds no integer has consumed the leading whitespace (46_io.md R206; D15). -/
theorem eq_of_readInt_fail {d d' : InDev} (h : d.readInt = .fail d') :
    d' = { d with bytes := d.bytes.dropWhile isSpace } := by
  simp only [InDev.readInt] at h
  generalize (if (takeSign (d.bytes.dropWhile isSpace)).1 = true then _ else _ : Int) = v at h
  split_ifs at h
  · exact (IntAnswer.fail.inj h).symm
  · exact (IntAnswer.fail.inj h).symm

theorem errorKind_status_ne_ioError (he : e ≠ .ioError) : e.status ≠ .ioError := by
  cases e
  case ioError => exact absurd rfl he
  all_goals nofun

/-- Settles O11: a step that ends in an error has raised, and only a failing IN has touched a device. -/
theorem failingStepChangesOnlyStatusAndPc : Obligations.FailingStepChangesOnlyStatusAndPc := by
  intro s t hs h hok hhalted
  cases stepEnd_step hs h with
  | noError status => exact absurd status (not_or.mpr ⟨hok, hhalted⟩)
  | raised e k kind words state =>
    subst state
    exact ⟨rfl, rfl, rfl, rfl, rfl, ⟨k, words, rfl⟩, rfl, (if_neg (errorKind_status_ne_ioError kind)).symm⟩
  | noInteger d answer state =>
    obtain rfl := eq_of_readInt_fail answer
    subst state
    exact ⟨rfl, rfl, rfl, rfl, rfl, ⟨1, by decide, rfl⟩, rfl, rfl⟩

end Sys2Proof.Machine

/-! # The host's accessors (80_host_interface.md R282 to R286) -/

namespace Sys2Proof.Machine

variable {s : State}

/-- Settles O49: each command answers at once, and `setReg` has the frame of one register. -/
theorem registerAccessorsTouchOneRegister : Obligations.RegisterAccessorsTouchOneRegister := fun s r v =>
  ⟨rfl, s.setReg r v, rfl, getReg_setReg_same s r v, onlyRegs_setReg s r v, setReg_pc s r v, setReg_status s r v⟩

theorem issue_getMemory_of_some {i : Int} {w : Word} (h : s.memRead i = some w) :
    issue (.getMemory i) s = (.word w, s.idle) := by
  simp only [issue, h]

/-- Settles O50: four hold by what the command is; `get_memory` finds its word inside the memory. -/
theorem otherAccessorsReadOrSetPc : Obligations.OtherAccessorsReadOrSetPc := by
  refine fun s v i => ⟨rfl, rfl, rfl, rfl, fun hi => ?_⟩
  have hread : s.memRead i = some (Memory.word s.mem i) :=
    memRead_isSome (Int.natCast_nonneg i) (Int.ofNat_lt.mpr hi)
  exact issue_getMemory_of_some hread

end Sys2Proof.Machine

/-! # One round of RUN, by its result (40_engine.md R110) -/

namespace Sys2Proof.Machine

variable {s t : State}

theorem runLoop_succ_of_fail (n : Nat) (k : Int) (h : step s = .next t) (hr : stepResult s = some .fail) :
    runLoop (n + 1) k s = (.count (-(k + 1)), t.idle) := by
  simp only [runLoop, h, hr]

theorem runLoop_succ_of_success (n : Nat) (k : Int) (h : step s = .next t) (hr : stepResult s = some .success)
    (ht : t.status ≠ .halted) : runLoop (n + 1) k s = runLoop n (k + 1) t := by
  simp only [runLoop, h, hr, if_neg ht]

end Sys2Proof.Machine

/-! # Falling off the end of the code region (70_reset_and_hazards.md R264) -/

namespace Sys2Proof.Machine

variable {s : State} {n : Nat}

/-- The status is Ok, and from `pc` to the end of the code/data region stand exactly `n` words, all zero: what R264
supposes. -/
structure ZerosToEnd (n : Nat) (s : State) : Prop where
  status : s.status = .ok
  valid : s.cfg.valid = true
  nonneg : 0 ≤ s.pc.toInt
  pcEnd : s.pc.toInt + n = (s.cfg.memSize : Int) - s.cfg.stackCap
  zeros : ∀ j : Nat, j < n → s.memRead (s.pc.toInt + j) = some 0

/-- With none left `pc` is `EOS + 1`, and the bound check raises (40_engine.md R102, D1). -/
theorem ZerosToEnd.step_zero (h : ZerosToEnd 0 s) :
    step s = .next (raisedState .invalidAddress 0 s) ∧ stepResult s = some .fail := by
  have hend := h.pcEnd
  have hout : endOfStack s.cfg < s.pc.toInt := by
    unfold endOfStack
    omega
  have hraised : raisedState .invalidAddress 0 s = { s with status := .invalidAddress } := by
    rw [raisedState, BitVec.add_zero]
    rfl
  rw [hraised]
  exact step_of_fetch_raises h.status (fetch_of_pc_outside (.inr hout))

/-- With one left the next step is a NOP. -/
theorem ZerosToEnd.step_succ (h : ZerosToEnd (n + 1) s) :
    step s = .next { s with pc := s.pc + 1 } ∧ stepResult s = some .success := by
  have hend := h.pcEnd
  have heos : s.pc.toInt ≤ endOfStack s.cfg := by
    unfold endOfStack
    omega
  have hword : s.memRead s.pc.toInt = some 0 := by
    simpa using h.zeros 0 (Nat.succ_pos n)
  exact step_of_zero h.status h.nonneg heos hword

/-- An increment below the signed bound does not wrap. -/
theorem toInt_add_one {p : Word} (h : p.toInt < intMax) : (p + 1).toInt = p.toInt + 1 := by
  have hlow := (toInt_range p).1
  unfold intMin at hlow
  unfold intMax at h
  rw [BitVec.toInt_add, show (1 : Word).toInt = 1 from rfl]
  exact Int.bmod_eq_of_le (by omega) (by omega)

/-- That NOP leaves one fewer. -/
theorem ZerosToEnd.next (h : ZerosToEnd (n + 1) s) : ZerosToEnd n { s with pc := s.pc + 1 } := by
  obtain ⟨hstatus, hvalid, hnonneg, hend, hzeros⟩ := h
  have hsize := (Config.valid_iff.mp hvalid).2
  have hpc : (s.pc + 1).toInt = s.pc.toInt + 1 := toInt_add_one (by unfold intMax; omega)
  constructor
  case status => exact hstatus
  case valid => exact hvalid
  case nonneg =>
    rw [hpc]
    omega
  case pcEnd =>
    show (s.pc + 1).toInt + n = (s.cfg.memSize : Int) - s.cfg.stackCap
    omega
  case zeros =>
    intro j hj
    have hindex : s.pc.toInt + 1 + j = s.pc.toInt + (j + 1 : Nat) := by omega
    rw [hpc, hindex]
    exact hzeros (j + 1) (Nat.succ_lt_succ hj)

theorem raisedState_pc_add_one (e : ErrorKind) (k : Nat) (s : State) :
    raisedState e k { s with pc := s.pc + 1 } = raisedState e (k + 1) s := by
  simp only [raisedState]
  rw [← pc_skip_succ, add_right_comm]

/-- RUN's loop through the zero words: one NOP for each, then the raise. -/
theorem ZerosToEnd.runLoop_eq (h : ZerosToEnd n s) {m : Nat} (hm : n < m) (k : Int) :
    runLoop m k s = (.count (-(k + n + 1)), (raisedState .invalidAddress n s).idle) := by
  induction n generalizing m k s with
  | zero =>
    obtain ⟨m, rfl⟩ := Nat.exists_eq_add_one_of_ne_zero (Nat.ne_zero_of_lt hm)
    obtain ⟨hstep, hfail⟩ := h.step_zero
    rw [runLoop_succ_of_fail m k hstep hfail, Nat.cast_zero, add_zero]
  | succ n ih =>
    obtain ⟨m, rfl⟩ := Nat.exists_eq_add_one_of_ne_zero (Nat.ne_zero_of_lt hm)
    obtain ⟨hstep, hsuccess⟩ := h.step_succ
    have hgoes : s.status ≠ .halted := by simp [h.status]
    have hcount : k + 1 + n + 1 = k + (n + 1 : Nat) + 1 := by omega
    rw [runLoop_succ_of_success m k hstep hsuccess hgoes, ih h.next (Nat.lt_of_succ_lt_succ hm), hcount,
      raisedState_pc_add_one]

/-- Settles O14: the zero words run one after the other, and the bound check ends the run; a status other than Ok comes
only then. -/
theorem fallingOffTheEndRaisesInvalidAddress : Obligations.FallingOffTheEndRaisesInvalidAddress := by
  intro s n hstatus hvalid hnonneg hend hzeros b hb
  have h : ZerosToEnd n s := ⟨hstatus, hvalid, hnonneg, hend, hzeros⟩
  have hrun := h.runLoop_eq (m := b.toNat) (by omega) 0
  rw [zero_add] at hrun
  exact hrun

end Sys2Proof.Machine

/-! # Commands and the invariant (80_host_interface.md R280, R287; 20_memory.md R58) -/

namespace Sys2Proof.Machine

variable {s : State}

/-- What every step keeps, the STEP command keeps. -/
theorem stepCall_keeps {P : State → Prop} (hP : ∀ s t, P s → step s = .next t → P t) (hs : P s) :
    P (stepCall s).2.machine := by
  rcases stepCall_cases s with ⟨_, _, e⟩ | ⟨t, r, hstep, _, e⟩ | ⟨_, e⟩
  · simpa [e] using hs
  · simpa [e] using hP s t hs hstep
  · simpa [e] using hs

/-- What every step keeps, RUN's loop keeps. -/
theorem runLoop_keeps {P : State → Prop} (hP : ∀ s t, P s → step s = .next t → P t) (n : Nat) (k : Int) (hs : P s) :
    P (runLoop n k s).2.machine := by
  induction n generalizing k s with
  | zero => exact hs
  | succ n ih =>
    rcases runLoop_succ_cases n k s with ⟨_, _, e⟩ | ⟨t, hstep, _, e⟩ | ⟨t, hstep, _, _, e⟩ |
      ⟨t, hstep, _, _, e⟩ | ⟨_, e⟩
    · simpa [e] using hs
    · simpa [e] using hP s t hs hstep
    · simpa [e] using hP s t hs hstep
    · rw [e]
      exact ih _ (hP s t hs hstep)
    · simpa [e] using hs

/-- Reset keeps the invariant: it leaves zero in every slot and adds no cell. -/
theorem inv_softReset (hs : s.Inv) : s.softReset.Inv where
  cfgValid := hs.cfgValid
  memWf := wf_clearWords hs.memWf
  memInside c hc := hs.memInside c (List.mem_of_mem_filter hc)
  ssizeLe := Nat.zero_le _
  freeZero j hj _ := by
    have hcap := (Config.valid_iff.mp hs.cfgValid).1
    rw [softReset_cfg] at hj ⊢
    exact word_clearWords_inside (by omega) (by omega)

/-- A command issued keeps the invariant: but for STEP, RUN and reset none touches what it speaks of. -/
theorem inv_issue (hs : s.Inv) (c : Command) : (issue c s).2.machine.Inv := by
  cases c with
  | step => exact stepCall_keeps stepKeepsTheInvariant hs
  | run b => exact runLoop_keeps stepKeepsTheInvariant b.toNat 0 hs
  | reset => exact inv_softReset hs
  | setRegister r v => exact hs.congr (setReg_cfg s r v) (setReg_mem s r v) (setReg_ssize s r v)
  | setPc v => exact hs.congr rfl rfl rfl
  | getMemory i =>
    simp only [issue]
    split
    · exact hs
    · exact hs
  | getRegister | getStackSize | getStatus | getPc => exact hs

/-- Going on with a command keeps the invariant. -/
theorem inv_resume (hs : s.Inv) (c : Call) : (resume (s.busy c)).2.machine.Inv := by
  cases c with
  | step => exact stepCall_keeps stepKeepsTheInvariant hs
  | run n k => exact runLoop_keeps stepKeepsTheInvariant n k hs

/-- Settles O54: STEP and RUN make steps, reset clears the stack, and the invariant does not speak of the devices. -/
theorem commandsKeepTheInvariant : Obligations.CommandsKeepTheInvariant := by
  intro e σ hs
  cases e with
  | command c =>
    rcases session_cases σ with ⟨s, rfl⟩ | ⟨s, call, rfl⟩
    · exact inv_issue hs c
    · exact hs
  | resume =>
    rcases session_cases σ with ⟨s, rfl⟩ | ⟨s, call, rfl⟩
    · exact hs
    · exact inv_resume hs call
  | feed | endInput | drain => exact hs.congr rfl rfl rfl

end Sys2Proof.Machine

/-! # Commands in progress (80_host_interface.md R281, R287; 40_engine.md R108) -/

namespace Sys2Proof.Machine

variable {s t : State} {c : Command} {call : Call}

/-- The two ways an answer to the host can leave the session: the command has returned and none is in progress, or it is
in progress with the status Ok and an IN or GET that waits at `pc` (R108, R281). -/
inductive CallEnd : Reply × Session → Prop where
  | returned (r : Reply) (t : State) (reply : r ≠ .waiting) : CallEnd (r, t.idle)
  | blocked (t : State) (call : Call) (status : t.status = .ok)
      (waits : ∃ i, fetch t = .instr i ∧ waitsForInput i t = true) : CallEnd (.waiting, t.busy call)

theorem CallEnd.pending_iff {ρ : Reply × Session} (h : CallEnd ρ) : ρ.2.pending.isSome = true ↔ ρ.1 = .waiting := by
  cases h with
  | returned r t reply => simpa using reply
  | blocked t call status waits => simp

theorem CallEnd.blocked_of_waiting {ρ : Reply × Session} (h : CallEnd ρ) (hw : ρ.1 = .waiting) :
    ρ.2.machine.status = .ok ∧ ∃ i, fetch ρ.2.machine = .instr i ∧ waitsForInput i ρ.2.machine = true := by
  cases h with
  | returned r t reply => exact absurd hw reply
  | blocked t call status waits => exact ⟨status, waits⟩

/-- A STEP without a result leaves its call in progress. -/
theorem callEnd_of_blocked (h : step s = .next s) (hr : stepResult s = none) (call : Call) :
    CallEnd (.waiting, s.busy call) := by
  obtain ⟨_, hs, hwaits⟩ := blocked_of_stepResult h hr
  exact .blocked s call hs hwaits

theorem callEnd_stepCall (s : State) : CallEnd (stepCall s) := by
  rcases stepCall_cases s with ⟨hstep, hr, e⟩ | ⟨t, r, _, _, e⟩ | ⟨_, e⟩
  · exact e ▸ callEnd_of_blocked hstep hr .step
  · exact e ▸ .returned _ t nofun
  · exact e ▸ .returned _ s nofun

theorem callEnd_runLoop (n : Nat) (k : Int) (s : State) : CallEnd (runLoop n k s) := by
  induction n generalizing k s with
  | zero => exact .returned _ s nofun
  | succ n ih =>
    rcases runLoop_succ_cases n k s with ⟨hstep, hr, e⟩ | ⟨t, _, _, e⟩ | ⟨t, _, _, _, e⟩ |
      ⟨t, _, _, _, e⟩ | ⟨_, e⟩
    · exact e ▸ callEnd_of_blocked hstep hr _
    · exact e ▸ .returned _ t nofun
    · exact e ▸ .returned _ t nofun
    · exact e ▸ ih (k + 1) t
    · exact e ▸ .returned _ s nofun

theorem callEnd_issue (c : Command) (s : State) : CallEnd (issue c s) := by
  cases c with
  | step => exact callEnd_stepCall s
  | run b => exact callEnd_runLoop b.toNat 0 s
  | getMemory i =>
    simp only [issue]
    split
    · exact .returned _ s nofun
    · exact .returned _ s nofun
  | reset | getRegister | setRegister | getStackSize | getStatus | getPc | setPc => exact .returned _ _ nofun

theorem callEnd_resume (call : Call) (s : State) : CallEnd (resume (s.busy call)) := by
  cases call with
  | step => exact callEnd_stepCall s
  | run n k => exact callEnd_runLoop n k s

/-- A STEP that waits has changed nothing. -/
theorem stepCall_of_waiting (h : (stepCall s).1 = .waiting) : stepCall s = (.waiting, s.busy .step) := by
  rcases stepCall_cases s with ⟨_, _, e⟩ | ⟨t, r, _, _, e⟩ | ⟨_, e⟩
  · exact e
  · simp [e] at h
  · simp [e] at h

/-- Settles O57: a session with a call answers `noMove` to commands and is left to the devices; every call ends in one
of the two ways of `CallEnd`. -/
theorem noCommandWhileOneIsInProgress : Obligations.NoCommandWhileOneIsInProgress := by
  refine ⟨fun c call s => command_busy c, fun c s => ?_, fun call s => ?_, fun c s hw => ?_, fun s hw => ?_,
    fun call s bs => ⟨rfl, rfl, rfl⟩⟩
  · exact (callEnd_issue c s).pending_iff
  · exact (callEnd_resume call s).pending_iff
  · exact (callEnd_issue c s).blocked_of_waiting hw
  · exact congrArg Prod.snd (stepCall_of_waiting hw)

/-! ## Going on with later input -/

/-- RUN's loop that waits goes on, with later input, as the loop that had it from the start: the rounds before the wait
are the same with it. -/
theorem resume_runLoop_mapDevices {f : InDev → InDev} (hf : LaterInput f) {n : Nat} {k : Int}
    (h : runLoop n k s = (.waiting, t.busy call)) :
    resume ((t.mapDevices f id).busy call) = runLoop n k (s.mapDevices f id) := by
  induction n generalizing k s with
  | zero => simp [runLoop] at h
  | succ n ih =>
    rcases runLoop_succ_cases n k s with ⟨_, _, e⟩ | ⟨u, _, _, e⟩ | ⟨u, _, _, _, e⟩ |
      ⟨u, hstep, hr, hgoes, e⟩ | ⟨_, e⟩
    · obtain ⟨rfl, rfl⟩ : s = t ∧ .run (n + 1) k = call := by simpa using e.symm.trans h
      exact resume_run (n + 1) k
    · cases e.symm.trans h
    · cases e.symm.trans h
    · obtain ⟨hstep', hr'⟩ := step_mapDevices (g := id) hf (fun _ _ => rfl) hr
      rw [hstep] at hstep'
      exact (ih (e.symm.trans h)).trans (runLoop_succ_of_success n k hstep' hr' hgoes).symm
    · cases e.symm.trans h

/-- Only STEP and RUN can wait, and with later input each goes on as if that had been there when it was issued. -/
theorem resume_issue_mapDevices {f : InDev → InDev} (hf : LaterInput f)
    (h : issue c s = (.waiting, t.busy call)) :
    resume ((t.mapDevices f id).busy call) = issue c (s.mapDevices f id) := by
  cases c with
  | step =>
    have hwait : stepCall s = (.waiting, s.busy .step) := stepCall_of_waiting (congrArg Prod.fst h)
    obtain ⟨rfl, rfl⟩ : s = t ∧ .step = call := by simpa using hwait.symm.trans h
    exact resume_step
  | run b => exact resume_runLoop_mapDevices hf h
  | getMemory i =>
    simp only [issue] at h
    split at h
    · cases h
    · cases h
  | reset | getRegister | setRegister | getStackSize | getStatus | getPc | setPc => cases h

/-- Settles O58: bytes that arrive, and the end of the stream, are later input. -/
theorem waitingCommandResumesAsIfInputHadBeenThere : Obligations.WaitingCommandResumesAsIfInputHadBeenThere :=
  fun _ _ _ _ h => ⟨fun bs => resume_issue_mapDevices (laterInput_feed bs) h,
    resume_issue_mapDevices laterInput_finish h⟩

end Sys2Proof.Machine
